-- ==== Sys2Proof/Word.lean ====
section
/-! DEFINITION. The block's value types: frames, register addresses, data bytes, pin levels (spec/00_scope.md §5,
spec/30_encoding.md R51), and an encoded word in one of the two formats of R50. -/

namespace Sys2Proof

/-- A 16-bit frame, and the contents of one slot (R10, R51). -/
abbrev Frame := BitVec 16

/-- A RegisterAddress: a register inside the driven chips, opaque to the block (R32, R53). -/
abbrev RegAddr := BitVec 4

/-- A data byte, opaque to the block (00_scope.md §7). -/
abbrev DataByte := BitVec 8

/-- A pin level: `false` is 0 (low), `true` is 1 (high) (R14). -/
abbrev Level := Bool

/-- An encoded word, tagged with its format (R50): a command word `CW` of `14 + AW` bits (R55), or a 16-bit frame
(R51). A command word is a natural, because the width `AW` of the device address is open (R3; log entry 2). -/
inductive EncodedWord where
  | command (cw : Nat)
  | frame16 (f : Frame)
  deriving DecidableEq, Repr

end Sys2Proof
end

