-- ==== Sys2Proof/Config.lean ====
section
/-! DEFINITION. What an instance fixes, and the values the spec leaves open. -/

namespace Sys2Proof.Config

/-- The chain length `N` of the instance that `State.reset` describes (R3: OPEN, `N ≥ 1`). Everything else in the model
takes `N` from the state, as the number of its slots. DESIGN CHOICE (log entry 1): 2, the chain of scenario S1. -/
def chainLength : Nat := 2

/-- FREE VALUE of the environment model: bit `p` of the chain register, the `k`-th time its contents are any value
(93_implementation_defined.md U4, U5; log entry 14). -/
opaque freeChainBit : Nat → Nat → Level

/-- FREE VALUE of the environment model: what device index `i` holds latched, the `k`-th time the chips' contents are
any value (U5; log entry 14). -/
opaque freeLatched : Nat → Nat → Frame

end Sys2Proof.Config
end

