-- ==== Sys2Proof/Machine/State.lean ====
section
/-! DEFINITION. The state of the block, what it drives and what it is driven by, as plain data (spec/10_state.md), the
reasons a step can stop, and the state after reset (R20). -/

namespace Sys2Proof.Machine

/-- The ChainBuffer's slot array `SLOT` (R10), the block's only memory (spec/20_memory.md). Its length is the chain length
`N`; every address `1 … N` is storage and nothing else exists (R39), so the list has one form for one memory. -/
abbrev Memory := List Frame

/-- The form of the buffer: at least one slot (R3), and bits 15..12 of every slot 0 (R11). -/
def Memory.wf (m : Memory) : Bool :=
  decide (1 ≤ m.length) && m.all fun f => f.extractLsb' 12 4 == 0#4

/-- The sub-phases of one bit (R13, D12). -/
inductive Phase where
  | present
  | clkHigh
  | clkLow
  deriving DecidableEq, Repr

/-- The sequencer state `TX` (R13). `t` is the stream time index, `0 ≤ t < 16·N` (`Inv` of Safety.lean). -/
inductive Tx where
  | idle
  | latchLow
  | shift (t : Nat) (ph : Phase)
  | latchHigh
  deriving DecidableEq, Repr

/-- The three output pins (R3, R14). -/
inductive Pin where
  | cs
  | clk
  | data
  deriving DecidableEq, Repr

/-- The levels the pins hold (R14). -/
structure Pins where
  cs : Level
  clk : Level
  data : Level
  deriving DecidableEq, Repr

/-- A pin event `(P, b)` (R18): an assignment of level `b` to pin `P`, also where the level stays (D22). -/
structure PinEvent where
  pin : Pin
  level : Level
  deriving DecidableEq, Repr

/-- The response classes (R58, R140). A running block answers the first two only (R142). -/
inductive Response where
  | ok
  | addressingError
  | configurationError
  deriving DecidableEq, Repr

/-- What the host and the chips saw between two resets: ghost (R18, R162; log entry 7). -/
structure Epoch where
  trace : List PinEvent
  responses : List Response
  deriving DecidableEq, Repr

/-- The state. `slots`, `tx` and `pins` are the block's own (R10, R13, R14). `port` and `rst` are its inputs: the words
the host presents, oldest first, and the levels of the reset input at the coming steps (log entries 4 and 5). `trace` and
`responses` are the outputs since reset, oldest first (R16, R18); `frameOut` is the FrameEncoder's output in the last step
(log entry 8); `past` holds what earlier resets ended, oldest first (log entry 7). No rule reads these four. -/
structure State where
  slots : Memory
  tx : Tx
  pins : Pins
  port : List EncodedWord
  rst : List Bool
  trace : List PinEvent
  responses : List Response
  frameOut : Option Frame
  past : List Epoch
  deriving DecidableEq, Repr

/-- The chain length `N` (R3, R10). -/
def State.chainLength (s : State) : Nat := s.slots.length

/-- Why the machine stops. -/
inductive Fault where
  /-- Raised by the `Present` step for a stream time index that is not below `16·N`: R13 gives the block no such state.
  Safe: no state the block reaches raises it (log entry 12). -/
  | streamIndexOutOfRange
  deriving DecidableEq, Repr

/-- Why the model gives no step. -/
inductive Refusal where
  /-- An instruction without a meaning; no arm of `exec` uses it any more. Safe. -/
  | notModelled (mnemonic : String)
  /-- Raised by a command given to `exec` while `TX` is not `Idle`: a command is accepted only when `READY = 1`, and one
  presented earlier has no step (R15, R99, U9). `step` never presents one so. Safe (log entry 10). -/
  | notReady
  /-- Raised by `step` for a FRAME16 word whose top nibble is not 0: it is no frame ENCODE gives (R52, R72). Safe (log
  entry 8). -/
  | notAFrame
  /-- Raised by construction with `N ≤ 0`, and by `step` on a state with no slot: ConfigurationError, no such block exists
  (R142, U7). Safe (log entry 12). -/
  | configurationError
  deriving DecidableEq, Repr

/-- The pins' rest levels after reset: `CS = 1`, `CLK = 0`, `DATA = 0` (R20). -/
def restPins : Pins := { cs := true, clk := false, data := false }

/-- The block of chain length `n` right after reset (R20, R160), with nothing presented and no reset asserted. -/
def State.initial (n : Nat) : State :=
  { slots := List.replicate n 0x0000#16
    tx := .idle
    pins := restPins
    port := []
    rst := []
    trace := []
    responses := []
    frameOut := none
    past := [] }

/-- The machine right after reset, for the chain length of `Config` (log entry 1). -/
def State.reset : State := State.initial Config.chainLength

/-- Construction of a block: refused with ConfigurationError for `N ≤ 0`, before anything else (R142, R147). -/
def State.construct (n : Nat) : Host.Outcome State Fault Refusal :=
  if n = 0 then .refused .configurationError else .next (State.initial n)

end Sys2Proof.Machine
end

