-- ==== Sys2Proof/Machine/Flags.lean ====
section
/-! DEFINITION. The block has no flags and no status register (R23). The only status it shows are `READY` and the response
codes, both outputs (R15, R58). -/

namespace Sys2Proof.Machine

/-- The reset input's level at the coming step (R161). -/
def State.rstNow (s : State) : Bool := s.rst.headD false

/-- `READY`: `TX = Idle` (R15), and reset not asserted (R161). -/
def State.ready (s : State) : Bool := decide (s.tx = .idle) && !s.rstNow

/-- The response codes (R58). -/
def Response.code : Response → Nat
  | .ok => 0
  | .addressingError => 1
  | .configurationError => 2

end Sys2Proof.Machine
end

