-- ==== Sys2Proof/Machine/Operands.lean ====
section
/-! DEFINITION. Operand forms: the frame and its fields (R51, R70, R72, R74), the register-address constants (R53), and
a device address as a slot index (R31). -/

namespace Sys2Proof.Machine

/-- ENCODE: `0b0000 ++ reg ++ data` (R70). -/
def encodeFrame (reg : RegAddr) (data : DataByte) : Frame := (0#4 ++ reg) ++ data

/-- DECODE, the test inverse of ENCODE: the two fields when the top nibble is 0 (R72). -/
def decodeFrame (f : Frame) : Option (RegAddr × DataByte) :=
  if f.extractLsb' 12 4 = 0#4 then some (f.extractLsb' 8 4, f.extractLsb' 0 8) else none

/-- The 16 bits of a frame in the order sent: position `j` is frame bit `15 - j` (R35, R74). -/
def frameBits (f : Frame) : List Level := (List.range 16).map fun j => f.getLsbD (15 - j)

/-- `dev` addresses a device of a chain of length `n`: `1 ≤ dev ≤ n`, compared as naturals (R31, R46). -/
def validDev (n dev : Nat) : Bool := decide (1 ≤ dev) && decide (dev ≤ n)

/-- The slot of a valid device address (R31, R131). -/
def slotIndex (dev : Nat) : Nat := dev - 1

/-! The register-address constants of the 14 named writes (R53, R112 to R125). `dig0`, `intensity` and `shutdown` are the
source's numbers; the other eleven the spec itself takes from general knowledge (R53, D14; log entry 13). -/

namespace Reg
def noop : RegAddr := 0x0#4
def dig0 : RegAddr := 0x1#4
def dig1 : RegAddr := 0x2#4
def dig2 : RegAddr := 0x3#4
def dig3 : RegAddr := 0x4#4
def dig4 : RegAddr := 0x5#4
def dig5 : RegAddr := 0x6#4
def dig6 : RegAddr := 0x7#4
def dig7 : RegAddr := 0x8#4
def decodeMode : RegAddr := 0x9#4
def intensity : RegAddr := 0xA#4
def scanLimit : RegAddr := 0xB#4
def shutdown : RegAddr := 0xC#4
def displayTest : RegAddr := 0xF#4
end Reg

end Sys2Proof.Machine
end

