-- ==== Sys2Proof/Machine/Ops.lean ====
section
/-! DEFINITION. The named operations of the block: reading the buffer, installing a frame, emitting, responding, raising an
error (R144), a burst, and reset (R160 to R162). -/

namespace Sys2Proof.Machine

/-! ### Reading the buffer -/

/-- `CellRead(c) = SLOT[c div 16][15 − (c mod 16)]`, defined for `0 ≤ c < 16·N` (R33). It is also the bit multiplexer
`bit(t)` (R91). -/
def cellRead (m : Memory) (c : Nat) : Option Level :=
  m[c / 16]?.map fun f => f.getLsbD (15 - c % 16)

/-- The bits a burst presents, in the order sent: every slot from slot 0 on, each from bit 15 to bit 0 (R35). -/
def streamBits (m : Memory) : List Level := m.flatMap frameBits

/-- `STREAM = SLOT[0] ++ … ++ SLOT[N−1]`, slot 0 most significant, as a number (R34). -/
def streamNumber (m : Memory) : Nat := m.foldl (fun acc f => acc * 2 ^ 16 + f.toNat) 0

/-! ### Primitives of 00_scope.md §5 -/

/-- The pins after an assignment. -/
def Pins.assign (p : Pins) (e : PinEvent) : Pins :=
  match e.pin with
  | .cs => { p with cs := e.level }
  | .clk => { p with clk := e.level }
  | .data => { p with data := e.level }

/-- `emit P <- b`: assign the level and append the event (R14, D22). -/
def emit (pin : Pin) (level : Level) (s : State) : State :=
  { s with pins := s.pins.assign ⟨pin, level⟩, trace := s.trace ++ [⟨pin, level⟩] }

/-- `respond c` (R141). -/
def respond (c : Response) (s : State) : State := { s with responses := s.responses ++ [c] }

/-- `TX <- x`. -/
def setTx (x : Tx) (s : State) : State := { s with tx := x }

/-- The FrameEncoder shows `f` at its output in this step (R70; log entry 8). -/
def showFrame (f : Frame) (s : State) : State := { s with frameOut := some f }

/-- `raise E`, the entry to an error: `respond E`, and nothing else happens: no slot is written, no event emitted, `TX` and
the pins stay (R144). There is no return from it: the block is ready at once (R145). -/
def raiseError (e : Response) (s : State) : State := respond e s

/-! ### Commands -/

/-- A command is accepted only when `TX = Idle` (R15, R94); presented earlier it has no step (R99). -/
def whenReady (s : State) (accepted : State) : Host.Outcome State Fault Refusal :=
  if s.tx = .idle then .next accepted else .refused .notReady

/-- `SLOT[dev − 1] <- ENCODE(reg, data)`, all 16 bits at once (R36, R80). -/
def install (dev : Nat) (reg : RegAddr) (data : DataByte) (s : State) : State :=
  showFrame (encodeFrame reg data) { s with slots := s.slots.set (slotIndex dev) (encodeFrame reg data) }

/-- The acceptance of LOAD: range check first, then install, then respond (R80, R147). -/
def acceptLoad (dev : Nat) (reg : RegAddr) (data : DataByte) (s : State) : State :=
  if validDev s.chainLength dev then respond .ok (install dev reg data s) else raiseError .addressingError s

/-- The acceptance of WRITE: range check first, then install, then the burst begins (R94, R110, R147). -/
def acceptWrite (dev : Nat) (reg : RegAddr) (data : DataByte) (s : State) : State :=
  if validDev s.chainLength dev then setTx .latchLow (install dev reg data s) else raiseError .addressingError s

/-- `WRITE(dev, reg, data)` (R110), the operation all 14 named writes are, with `reg` fixed (R62). -/
def registerWrite (dev : Nat) (reg : RegAddr) (data : DataByte) (s : State) : Host.Outcome State Fault Refusal :=
  whenReady s (acceptWrite dev reg data s)

/-! ### A burst as one event list -/

/-- Presenting and clocking one bit (R90). -/
def bitEvents (b : Level) : List PinEvent := [⟨.data, b⟩, ⟨.clk, true⟩, ⟨.clk, false⟩]

/-- The events of a whole burst (R90, R92). -/
def burstEvents (m : Memory) : List PinEvent :=
  ⟨.cs, false⟩ :: (streamBits m).flatMap bitEvents ++ [⟨.cs, true⟩]

/-- The pin levels after a list of assignments (R14). -/
def Pins.assignAll (p : Pins) (es : List PinEvent) : Pins := es.foldl Pins.assign p

/-! ### Reset -/

/-- The level changes that reset makes, in the order R162 lists the pins (log entry 7). -/
def resetEvents (p : Pins) : List PinEvent :=
  (if p.clk = restPins.clk then [] else [⟨.clk, restPins.clk⟩])
    ++ (if p.data = restPins.data then [] else [⟨.data, restPins.data⟩])
    ++ (if p.cs = restPins.cs then [] else [⟨.cs, restPins.cs⟩])

/-- What a reset ends: the events so far, then the reset's level changes, and the responses so far; the command in progress
gets none (R162). -/
def State.endedEpoch (s : State) : Epoch :=
  { trace := s.trace ++ resetEvents s.pins, responses := s.responses }

/-- `past`, with the ended epoch if anything happened in it. -/
def State.pastAtReset (s : State) : List Epoch :=
  if s.endedEpoch = { trace := [], responses := [] } then s.past else s.past ++ [s.endedEpoch]

/-- The reset transition, enabled in every state (R160 to R162): the values of R20. The host's inputs are its own. -/
def applyReset (s : State) : State :=
  { State.initial s.chainLength with port := s.port, rst := s.rst, past := s.pastAtReset }

end Sys2Proof.Machine
end

