-- ==== Sys2Proof/Machine/ChainBuffer.lean ====
section
/-! DEFINITION. The meaning of LOAD (spec/41_chain_buffer.md). -/

namespace Sys2Proof.Machine

/-- LOAD (R80 to R84). -/
def execLoad (dev : Nat) (reg : RegAddr) (data : DataByte) (s : State) : Host.Outcome State Fault Refusal :=
  whenReady s (acceptLoad dev reg data s)

end Sys2Proof.Machine
end

