-- ==== Sys2Proof/Machine/FrameEncoder.lean ====
section
/-! DEFINITION. The meaning of ENCODE (spec/40_frame_encoder.md). -/

namespace Sys2Proof.Machine

/-- ENCODE: pure and total, it reads and writes no state and emits nothing; its result stands at the FrameEncoder's output
(R70, R71; log entry 8). It is combinational, so it needs no READY. -/
def execEncode (reg : RegAddr) (data : DataByte) (s : State) : Host.Outcome State Fault Refusal :=
  .next (showFrame (encodeFrame reg data) s)

end Sys2Proof.Machine
end

