-- ==== Sys2Proof/Machine/RegisterWrite.lean ====
section
/-! DEFINITION. The meanings of WRITE and of the 14 named writes (spec/43_register_write.md), which are their acceptance
steps (R94): the range check, the install, and the beginning of the burst, or the AddressingError. -/

namespace Sys2Proof.Machine

/-- WRITE with a free register address (R110). -/
def execWrite (dev : Nat) (reg : RegAddr) (data : DataByte) (s : State) : Host.Outcome State Fault Refusal :=
  registerWrite dev reg data s

/-- WR_NOOP (R112). -/
def execWrNoop (dev : Nat) (data : DataByte) (s : State) : Host.Outcome State Fault Refusal :=
  registerWrite dev Reg.noop data s

/-- WR_DIG0 (R113). -/
def execWrDig0 (dev : Nat) (data : DataByte) (s : State) : Host.Outcome State Fault Refusal :=
  registerWrite dev Reg.dig0 data s

/-- WR_DIG1 (R114). -/
def execWrDig1 (dev : Nat) (data : DataByte) (s : State) : Host.Outcome State Fault Refusal :=
  registerWrite dev Reg.dig1 data s

/-- WR_DIG2 (R115). -/
def execWrDig2 (dev : Nat) (data : DataByte) (s : State) : Host.Outcome State Fault Refusal :=
  registerWrite dev Reg.dig2 data s

/-- WR_DIG3 (R116). -/
def execWrDig3 (dev : Nat) (data : DataByte) (s : State) : Host.Outcome State Fault Refusal :=
  registerWrite dev Reg.dig3 data s

/-- WR_DIG4 (R117). -/
def execWrDig4 (dev : Nat) (data : DataByte) (s : State) : Host.Outcome State Fault Refusal :=
  registerWrite dev Reg.dig4 data s

/-- WR_DIG5 (R118). -/
def execWrDig5 (dev : Nat) (data : DataByte) (s : State) : Host.Outcome State Fault Refusal :=
  registerWrite dev Reg.dig5 data s

/-- WR_DIG6 (R119). -/
def execWrDig6 (dev : Nat) (data : DataByte) (s : State) : Host.Outcome State Fault Refusal :=
  registerWrite dev Reg.dig6 data s

/-- WR_DIG7 (R120). -/
def execWrDig7 (dev : Nat) (data : DataByte) (s : State) : Host.Outcome State Fault Refusal :=
  registerWrite dev Reg.dig7 data s

/-- WR_DECODE (R121). -/
def execWrDecode (dev : Nat) (data : DataByte) (s : State) : Host.Outcome State Fault Refusal :=
  registerWrite dev Reg.decodeMode data s

/-- WR_INTENSITY (R122). -/
def execWrIntensity (dev : Nat) (data : DataByte) (s : State) : Host.Outcome State Fault Refusal :=
  registerWrite dev Reg.intensity data s

/-- WR_SCANLIMIT (R123). -/
def execWrScanlimit (dev : Nat) (data : DataByte) (s : State) : Host.Outcome State Fault Refusal :=
  registerWrite dev Reg.scanLimit data s

/-- WR_SHUTDOWN (R124). -/
def execWrShutdown (dev : Nat) (data : DataByte) (s : State) : Host.Outcome State Fault Refusal :=
  registerWrite dev Reg.shutdown data s

/-- WR_DISPTEST (R125). -/
def execWrDisptest (dev : Nat) (data : DataByte) (s : State) : Host.Outcome State Fault Refusal :=
  registerWrite dev Reg.displayTest data s

end Sys2Proof.Machine
end

