-- ==== Sys2Proof/Machine/Transmitter.lean ====
section
/-! DEFINITION. The ChainTransmitter (spec/42_chain_transmitter.md): the meanings of NOP and SEND, which are their acceptance
steps (R94), and the sequencer's micro-steps (R95 to R100). -/

namespace Sys2Proof.Machine

/-- NOP (R103). -/
def execNop (s : State) : Host.Outcome State Fault Refusal := whenReady s (respond .ok s)

/-- SEND (R90), accepted: the burst begins with the next step (R94). -/
def execSend (s : State) : Host.Outcome State Fault Refusal := whenReady s (setTx .latchLow s)

/-- The `LatchLow` step (R95). -/
def latchLowStep (s : State) : State := setTx (.shift 0 .present) (emit .cs false s)

/-- The `Present` step (R96): the bit multiplexer's output goes to `DATA`. -/
def presentStep (t : Nat) (s : State) : Host.Outcome State Fault Refusal :=
  match cellRead s.slots t with
  | some b => .next (setTx (.shift t .clkHigh) (emit .data b s))
  | none => .fault .streamIndexOutOfRange

/-- The `ClkHigh` step (R97). -/
def clkHighStep (t : Nat) (s : State) : State := setTx (.shift t .clkLow) (emit .clk true s)

/-- Where the sequencer goes after bit `t` (R98). -/
def afterBit (n t : Nat) : Tx := if t + 1 < 16 * n then .shift (t + 1) .present else .latchHigh

/-- The `ClkLow` step (R98). -/
def clkLowStep (t : Nat) (s : State) : State := setTx (afterBit s.chainLength t) (emit .clk false s)

/-- The `LatchHigh` step, which delivers the response of the command (R100, R141). -/
def latchHighStep (s : State) : State := setTx .idle (respond .ok (emit .cs true s))

/-- One step of the sequencer (R94 to R100). In `Idle` it has none of its own: the acceptance is the command's (R94), and
without a command the block waits. -/
def sequencerStep (s : State) : Host.Outcome State Fault Refusal :=
  match s.tx with
  | .idle => .next s
  | .latchLow => .next (latchLowStep s)
  | .shift t .present => presentStep t s
  | .shift t .clkHigh => .next (clkHighStep t s)
  | .shift t .clkLow => .next (clkLowStep t s)
  | .latchHigh => .next (latchHighStep s)

end Sys2Proof.Machine
end

