-- ==== Sys2Proof/Syntax.lean ====
section
/-! DEFINITION. The operations of the block: one constructor per row of spec/opcode_table.json (R50, R56, R62). -/

namespace Sys2Proof

/-- The operations. `dev` is a DeviceAddress as an unsigned natural of any size (R31, R46, D4), `reg` and `data` are
exactly 4 and 8 bits (R57, D13). NOP and SEND ignore the other fields of their command word (R55), so they have none. -/
inductive Instr where
  | encode (reg : RegAddr) (data : DataByte)
  | nop
  | send
  | load (dev : Nat) (reg : RegAddr) (data : DataByte)
  | write (dev : Nat) (reg : RegAddr) (data : DataByte)
  | wrNoop (dev : Nat) (data : DataByte)
  | wrDig0 (dev : Nat) (data : DataByte)
  | wrDig1 (dev : Nat) (data : DataByte)
  | wrDig2 (dev : Nat) (data : DataByte)
  | wrDig3 (dev : Nat) (data : DataByte)
  | wrDig4 (dev : Nat) (data : DataByte)
  | wrDig5 (dev : Nat) (data : DataByte)
  | wrDig6 (dev : Nat) (data : DataByte)
  | wrDig7 (dev : Nat) (data : DataByte)
  | wrDecode (dev : Nat) (data : DataByte)
  | wrIntensity (dev : Nat) (data : DataByte)
  | wrScanlimit (dev : Nat) (data : DataByte)
  | wrShutdown (dev : Nat) (data : DataByte)
  | wrDisptest (dev : Nat) (data : DataByte)
  deriving DecidableEq, Repr

end Sys2Proof
end

