-- ==== Sys2Proof/Machine/Dispatch.lean ====
section
/-! DEFINITION. Which meaning each operation has: one arm per constructor. -/

namespace Sys2Proof.Machine

def exec (i : Instr) (s : State) : Host.Outcome State Fault Refusal :=
  match i with
  | .encode reg data => Sys2Proof.Machine.execEncode reg data s
  | .nop => Sys2Proof.Machine.execNop s
  | .send => Sys2Proof.Machine.execSend s
  | .load dev reg data => Sys2Proof.Machine.execLoad dev reg data s
  | .write dev reg data => Sys2Proof.Machine.execWrite dev reg data s
  | .wrNoop dev data => Sys2Proof.Machine.execWrNoop dev data s
  | .wrDig0 dev data => Sys2Proof.Machine.execWrDig0 dev data s
  | .wrDig1 dev data => Sys2Proof.Machine.execWrDig1 dev data s
  | .wrDig2 dev data => Sys2Proof.Machine.execWrDig2 dev data s
  | .wrDig3 dev data => Sys2Proof.Machine.execWrDig3 dev data s
  | .wrDig4 dev data => Sys2Proof.Machine.execWrDig4 dev data s
  | .wrDig5 dev data => Sys2Proof.Machine.execWrDig5 dev data s
  | .wrDig6 dev data => Sys2Proof.Machine.execWrDig6 dev data s
  | .wrDig7 dev data => Sys2Proof.Machine.execWrDig7 dev data s
  | .wrDecode dev data => Sys2Proof.Machine.execWrDecode dev data s
  | .wrIntensity dev data => Sys2Proof.Machine.execWrIntensity dev data s
  | .wrScanlimit dev data => Sys2Proof.Machine.execWrScanlimit dev data s
  | .wrShutdown dev data => Sys2Proof.Machine.execWrShutdown dev data s
  | .wrDisptest dev data => Sys2Proof.Machine.execWrDisptest dev data s

end Sys2Proof.Machine
end

