-- ==== Sys2Proof/WellFormed.lean ====
section
/-! DEFINITION. Which instructions are the name a decoder gives to some word (R62, R63). -/

namespace Sys2Proof

/-- The register addresses outside the enumeration of the 14 named writes (R53, R54). -/
def unnamedReg (reg : RegAddr) : Bool := reg == 0xD#4 || reg == 0xE#4

/-- An instruction is well formed when it is the name of the words it stands for: a word with `op = 11` is plain WRITE
only when `reg` is `0xD` or `0xE`, and one of the 14 named writes otherwise (R62). Every other operand value is admitted.
A WRITE that is not well formed in this sense still has its meaning, the same as the named write's (R62). -/
def Instr.wellFormed : Instr → Bool
  | .write _ reg _ => unnamedReg reg
  | .encode _ _ | .nop | .send | .load _ _ _
  | .wrNoop _ _ | .wrDig0 _ _ | .wrDig1 _ _ | .wrDig2 _ _ | .wrDig3 _ _ | .wrDig4 _ _ | .wrDig5 _ _ | .wrDig6 _ _
  | .wrDig7 _ _ | .wrDecode _ _ | .wrIntensity _ _ | .wrScanlimit _ _ | .wrShutdown _ _ | .wrDisptest _ _ => true

end Sys2Proof
end

