-- ==== Sys2Proof/Decode.lean ====
section
/-! DEFINITION. The decoder of command words and frames (R55, R56, R62, R63, R72), and the encoder from the same tables. -/

namespace Sys2Proof

/-- Why a word is no instruction. A command word always is one (R56). -/
inductive DecodeError where
  /-- A FRAME16 word whose bits 15..12 are not all 0 (R52, R63, R72). -/
  | topNibbleNotZero
  deriving DecidableEq, Repr

/-- The fields of a command word: `data = CW[7:0]`, `reg = CW[11:8]`, `op = CW[13:12]`, `dev` above bit 13 (R55). -/
def cwData (cw : Nat) : DataByte := BitVec.ofNat 8 cw
def cwReg (cw : Nat) : RegAddr := BitVec.ofNat 4 (cw / 2 ^ 8)
def cwOp (cw : Nat) : Nat := cw / 2 ^ 12 % 4
def cwDev (cw : Nat) : Nat := cw / 2 ^ 14

/-- The name of a write, by its register address (R62, R63). -/
def nameWrite (dev : Nat) (reg : RegAddr) (data : DataByte) : Instr :=
  match reg.toNat with
  | 0x0 => .wrNoop dev data
  | 0x1 => .wrDig0 dev data
  | 0x2 => .wrDig1 dev data
  | 0x3 => .wrDig2 dev data
  | 0x4 => .wrDig3 dev data
  | 0x5 => .wrDig4 dev data
  | 0x6 => .wrDig5 dev data
  | 0x7 => .wrDig6 dev data
  | 0x8 => .wrDig7 dev data
  | 0x9 => .wrDecode dev data
  | 0xA => .wrIntensity dev data
  | 0xB => .wrScanlimit dev data
  | 0xC => .wrShutdown dev data
  | 0xF => .wrDisptest dev data
  | _ => .write dev reg data

/-- Decoding a command word (R63): total, because every `op` is legal (R56). -/
def decodeCommand (cw : Nat) : Instr :=
  match cwOp cw with
  | 0 => .nop
  | 1 => .send
  | 2 => .load (cwDev cw) (cwReg cw) (cwData cw)
  | _ => nameWrite (cwDev cw) (cwReg cw) (cwData cw)

/-- Decoding a frame (R63, R72): the ENCODE whose result it is. -/
def decodeFrame16 (f : Frame) : Except DecodeError Instr :=
  match Machine.decodeFrame f with
  | some (reg, data) => .ok (.encode reg data)
  | none => .error .topNibbleNotZero

/-- The decoder, total on every word of either format. -/
def decode : EncodedWord → Except DecodeError Instr
  | .command cw => .ok (decodeCommand cw)
  | .frame16 f => decodeFrame16 f

/-- `CW = dev ++ op ++ reg ++ data` (R55). -/
def commandWord (dev op : Nat) (reg : RegAddr) (data : DataByte) : EncodedWord :=
  .command (dev * 2 ^ 14 + op * 2 ^ 12 + reg.toNat * 2 ^ 8 + data.toNat)

/-- The encoder, from R55, R56 and the `match` column of spec/opcode_table.json. The fields a command ignores are 0
(log entry 11). -/
def encode : Instr → EncodedWord
  | .encode reg data => .frame16 (Machine.encodeFrame reg data)
  | .nop => commandWord 0 0 0x0#4 0x00#8
  | .send => commandWord 0 1 0x0#4 0x00#8
  | .load dev reg data => commandWord dev 2 reg data
  | .write dev reg data => commandWord dev 3 reg data
  | .wrNoop dev data => commandWord dev 3 0x0#4 data
  | .wrDig0 dev data => commandWord dev 3 0x1#4 data
  | .wrDig1 dev data => commandWord dev 3 0x2#4 data
  | .wrDig2 dev data => commandWord dev 3 0x3#4 data
  | .wrDig3 dev data => commandWord dev 3 0x4#4 data
  | .wrDig4 dev data => commandWord dev 3 0x5#4 data
  | .wrDig5 dev data => commandWord dev 3 0x6#4 data
  | .wrDig6 dev data => commandWord dev 3 0x7#4 data
  | .wrDig7 dev data => commandWord dev 3 0x8#4 data
  | .wrDecode dev data => commandWord dev 3 0x9#4 data
  | .wrIntensity dev data => commandWord dev 3 0xA#4 data
  | .wrScanlimit dev data => commandWord dev 3 0xB#4 data
  | .wrShutdown dev data => commandWord dev 3 0xC#4 data
  | .wrDisptest dev data => commandWord dev 3 0xF#4 data

/-- The word the host gives as `nbits` bits `w`: a command word, what the command port takes. The row ENCODE of the
opcode table is over a frame, no host command, and its words are NOP's as command words (R63; log entry 9). -/
def tableWord (nbits w : Nat) : EncodedWord := .command (w % 2 ^ nbits)

/-- What the decoder reads from the `nbits` bits `w`. -/
def decodeTableWord (nbits w : Nat) : Option Instr :=
  match decode (tableWord nbits w) with
  | .ok i => some i
  | .error _ => none

end Sys2Proof
end

