-- ==== Sys2Proof/Machine/Fetch.lean ====
section
/-! DEFINITION. What the machine does next, read from its inputs and from `TX`: reset first (R147, R162), then the burst in
progress (R99), then the command port (R94). -/

namespace Sys2Proof.Machine

/-- What one step is. The state in it is the one the step starts from, its inputs taken. -/
inductive Action where
  /-- No block of this configuration exists (R142). -/
  | noBlock
  /-- The reset input is asserted (R161). -/
  | reset (s : State)
  /-- A burst is in progress: the sequencer's own step (R95 to R100). -/
  | sequence (s : State)
  /-- `Idle`, and nothing is presented: the block waits. -/
  | wait (s : State)
  /-- `Idle`, and the presented word is accepted as `i` (R94). -/
  | accept (i : Instr) (s : State)
  /-- The presented word is no instruction. -/
  | reject
  deriving DecidableEq, Repr

/-- The state at the start of a step: the reset input's sample is taken, and the FrameEncoder shows nothing yet. -/
def State.sampled (s : State) : State := { s with rst := s.rst.tail, frameOut := none }

/-- The same, when the step also takes a word from the port and leaves `ws` there. -/
def State.takingWord (s : State) (ws : List EncodedWord) : State := { s.sampled with port := ws }

/-- What the machine does next. -/
def nextAction (s : State) : Action :=
  if s.slots = [] then .noBlock
  else if s.rstNow then .reset s.sampled
  else if s.tx ≠ .idle then .sequence s.sampled
  else
    match s.port with
    | [] => .wait s.sampled
    | w :: ws =>
      match decode w with
      | .ok i => .accept i (s.takingWord ws)
      | .error _ => .reject

/-- The state in which the next step takes the word `w`: it is presented first, `TX` is `Idle` and reset is not asserted. -/
def State.present (s : State) (w : EncodedWord) : State :=
  { s with port := w :: s.port, tx := .idle, rst := if s.rstNow then false :: s.rst else s.rst }

end Sys2Proof.Machine
end

