-- ==== Sys2Proof/Machine/Step.lean ====
section
/-! DEFINITION. One step of the machine: a reset, a micro-step of the sequencer (R95 to R100), the acceptance of a command
(R94), or waiting for one. -/

namespace Sys2Proof.Machine

/-- One step. -/
def step (s : State) : Host.Outcome State Fault Refusal :=
  match nextAction s with
  | .noBlock => .refused .configurationError
  | .reset t => .next (applyReset t)
  | .sequence t => sequencerStep t
  | .wait t => .next t
  | .accept i t => exec i t
  | .reject => .refused .notAFrame

/-- The host presents the `nbits` bits `w` as a command word, to be taken by the very next step (log entry 4). -/
def State.withFetchWord (s : State) (nbits w : Nat) : State := s.present (tableWord nbits w)

end Sys2Proof.Machine
end

