-- ==== Sys2Proof/Machine/Transaction.lean ====
section
/-! DEFINITION. The transaction level (R6): each command as one atomic step with its whole effect, written from the
pseudocode of R70, R80, R90, R103 and R110. The machine itself steps at the micro-step level; R101 says that the two agree. -/

namespace Sys2Proof.Machine

/-- The operands of WRITE or of a named write, with the constant of R53 for the named ones (R62). -/
def writeOperands : Instr → Option (Nat × RegAddr × DataByte)
  | .encode _ _ | .nop | .send | .load _ _ _ => none
  | .write dev reg data => some (dev, reg, data)
  | .wrNoop dev data => some (dev, Reg.noop, data)
  | .wrDig0 dev data => some (dev, Reg.dig0, data)
  | .wrDig1 dev data => some (dev, Reg.dig1, data)
  | .wrDig2 dev data => some (dev, Reg.dig2, data)
  | .wrDig3 dev data => some (dev, Reg.dig3, data)
  | .wrDig4 dev data => some (dev, Reg.dig4, data)
  | .wrDig5 dev data => some (dev, Reg.dig5, data)
  | .wrDig6 dev data => some (dev, Reg.dig6, data)
  | .wrDig7 dev data => some (dev, Reg.dig7, data)
  | .wrDecode dev data => some (dev, Reg.decodeMode, data)
  | .wrIntensity dev data => some (dev, Reg.intensity, data)
  | .wrScanlimit dev data => some (dev, Reg.scanLimit, data)
  | .wrShutdown dev data => some (dev, Reg.shutdown, data)
  | .wrDisptest dev data => some (dev, Reg.displayTest, data)

/-- The operands of an operation that installs a frame (R80, R110). -/
def installOperands : Instr → Option (Nat × RegAddr × DataByte)
  | .load dev reg data => some (dev, reg, data)
  | i => writeOperands i

/-- One turn of the loop of R90: present the bit, pulse the clock. -/
def sendBit (s : State) (b : Level) : State := emit .clk false (emit .clk true (emit .data b s))

/-- SEND as one transaction (R90). The FrameEncoder shows nothing at its end. -/
def transmit (s : State) : State :=
  respond .ok (emit .cs true ((streamBits s.slots).foldl sendBit (emit .cs false { s with frameOut := none })))

/-- WRITE as one transaction (R110). -/
def transactWrite (dev : Nat) (reg : RegAddr) (data : DataByte) (s : State) : State :=
  if validDev s.chainLength dev then transmit (install dev reg data s) else raiseError .addressingError s

/-- The FrameEncoder shows nothing: it keeps no frame from one operation to the next (R19). -/
def hideFrame (s : State) : State := { s with frameOut := none }

/-- The effect of an operation. -/
def effect (i : Instr) (s : State) : State :=
  match writeOperands i with
  | some (dev, reg, data) => transactWrite dev reg data s
  | none =>
    match i with
    | .encode reg data => showFrame (encodeFrame reg data) s
    | .load dev reg data => acceptLoad dev reg data s
    | .send => transmit s
    | _ => respond .ok s

/-- An operation as one transaction. -/
def transact (i : Instr) (s : State) : State := effect i (hideFrame s)

/-- The pin events, and the sequencer's steps, of one burst of a chain of `n` devices (R92, R101). -/
def burstSteps (n : Nat) : Nat := 48 * n + 2

/-- Whether an operation, given to a chain of `n` devices, sends a burst: SEND, and a write with a valid device address. -/
def sendsBurst (n : Nat) (i : Instr) : Bool :=
  match writeOperands i with
  | some (dev, _, _) => validDev n dev
  | none => decide (i = .send)

/-- The steps an operation takes: its acceptance, and its burst if it sends one (R101). -/
def stepsOf (n : Nat) (i : Instr) : Nat := if sendsBurst n i then 1 + burstSteps n else 1

/-- The response of a command (R141); ENCODE is no command. -/
def responsesOf (n : Nat) (i : Instr) : List Response :=
  match installOperands i with
  | some (dev, _, _) => if validDev n dev then [.ok] else [.addressingError]
  | none =>
    match i with
    | .encode _ _ => []
    | _ => [.ok]

end Sys2Proof.Machine
end

