-- ==== Sys2Proof/Machine/World.lean ====
section
/-! DEFINITION. The environment: the driven chips as the informative receiver model of R104 and R105 has them, beside the
block and never part of its state (R19). A claim that rests on this file rests on an assumption about the environment
(D21; log entry 14). -/

namespace Sys2Proof.Machine

/-- The chain of driven chips. `cells` is `CH`, chain position `p` at index `p`; `latched` is what each device last loaded,
device `a` at index `a − 1`. `timingKept` says that the hardware spaces its pin events by at least `T_HOLD` (R102); without
it the shift is corrupted and its result any value (U4). `unknowns` counts the free values taken. -/
structure Chain where
  cells : List Level
  latched : List Frame
  timingKept : Bool
  unknowns : Nat
  deriving DecidableEq, Repr

/-- The number of chips in the chain. The block cannot check that it is `N` (R163, U10). -/
def Chain.length (c : Chain) : Nat := c.latched.length

/-- The chain shifts one bit in at position 0; the bit leaving the last position is lost (R104). -/
def Chain.shiftIn (b : Level) (c : Chain) : Chain := { c with cells := (b :: c.cells).take (16 * c.length) }

/-- The 16 bits device `a` holds: `CH[16·(M−a) + 15 : 16·(M−a)]`, for a chain of `M` chips (R104). -/
def Chain.held (c : Chain) (a : Nat) : Frame :=
  (BitVec.ofBoolListLE ((c.cells.drop (16 * (c.length - a))).take 16)).setWidth 16

/-- Every device loads the 16 bits it holds (R105). -/
def Chain.latch (c : Chain) : Chain :=
  { c with latched := (List.range c.length).map fun i => c.held (i + 1) }

/-- The chain register holds any value. -/
def Chain.forgetCells (c : Chain) : Chain :=
  { c with cells := (List.range (16 * c.length)).map (Config.freeChainBit c.unknowns), unknowns := c.unknowns + 1 }

/-- The chips hold any value, in the chain register and in what they latched (R162, U5). -/
def Chain.forget (c : Chain) : Chain :=
  { c.forgetCells with latched := (List.range c.length).map (Config.freeLatched c.unknowns) }

/-- A rising edge of `CLK`, with `DATA` at level `b` (R104, U4). -/
def Chain.clockEdge (b : Level) (c : Chain) : Chain := if c.timingKept then c.shiftIn b else c.forgetCells

/-- The chips see the pins go from `p` to `q`: they shift on a rising edge of `CLK` and latch on a rising edge of `CS`. -/
def Chain.observe (p q : Pins) (c : Chain) : Chain :=
  let shifted := if !p.clk && q.clk then c.clockEdge q.data else c
  if !p.cs && q.cs then shifted.latch else shifted

/-- The block and the chain it drives. -/
structure World where
  block : State
  chain : Chain
  deriving DecidableEq, Repr

/-- What one step of the block from `s` to `t` does to the chips. A reset during a burst leaves them with any value (R162);
any other step acts on them through the pins alone. -/
def Chain.follow (s t : State) (c : Chain) : Chain :=
  if s.rstNow && !decide (s.tx = .idle) then c.forget else c.observe s.pins t.pins

/-- One step of the block and its chips. -/
def World.step (w : World) : Host.Outcome World Fault Refusal :=
  match Machine.step w.block with
  | .next t => .next { block := t, chain := w.chain.follow w.block t }
  | .fault r => .fault r
  | .refused r => .refused r

/-- `k` steps of the block and its chips. -/
def World.steps : Nat → World → Host.Outcome World Fault Refusal
  | 0, w => .next w
  | k + 1, w =>
    match w.step with
    | .next v => v.steps k
    | .fault r => .fault r
    | .refused r => .refused r

end Sys2Proof.Machine
end

