-- ==== Sys2Proof/Safety.lean ====
section
/-! DEFINITION. What claims are stated with: runs, the invariants of the block, the shape of its trace, and the part of a
state that is hardware. -/

namespace Sys2Proof.Machine

/-- `k` steps, stopping at the first fault or refusal. -/
def steps : Nat → State → Host.Outcome State Fault Refusal
  | 0, s => .next s
  | k + 1, s =>
    match step s with
    | .next t => steps k t
    | .fault r => .fault r
    | .refused r => .refused r

/-- The reset input is not asserted at the next `k` steps. -/
abbrev NoResetFor (k : Nat) (s : State) : Prop := ∀ b ∈ s.rst.take k, b = false

/-- `TX` and the pins agree (R13, R17, R92, R107): in `Idle` and before the burst `CS = 1` and `CLK = 0`; during the burst
`CS = 0`, the counter is below `16·N`, `CLK` is 1 only between the `ClkHigh` and the `ClkLow` step, and `DATA` holds the
bit from its `Present` step on. -/
def SequencerOk (s : State) : Prop :=
  match s.tx with
  | .idle | .latchLow => s.pins.cs = true ∧ s.pins.clk = false
  | .shift t .present => t < 16 * s.chainLength ∧ s.pins.cs = false ∧ s.pins.clk = false
  | .shift t .clkHigh =>
    t < 16 * s.chainLength ∧ s.pins.cs = false ∧ s.pins.clk = false ∧ cellRead s.slots t = some s.pins.data
  | .shift t .clkLow =>
    t < 16 * s.chainLength ∧ s.pins.cs = false ∧ s.pins.clk = true ∧ cellRead s.slots t = some s.pins.data
  | .latchHigh => s.pins.cs = false ∧ s.pins.clk = false

/-- The invariant of the block: the buffer has its form (R3, R11), and `TX` and the pins agree. -/
structure Inv (s : State) : Prop where
  buffer : s.slots.wf = true
  sequencer : SequencerOk s

/-- How many events of its burst the sequencer has emitted (R92, R95 to R100). -/
def eventsDone (n : Nat) : Tx → Nat
  | .idle | .latchLow => 0
  | .shift t .present => 3 * t + 1
  | .shift t .clkHigh => 3 * t + 2
  | .shift t .clkLow => 3 * t + 3
  | .latchHigh => 48 * n + 1

/-- The trace since reset is whole bursts, each of one image of a buffer of this length, and then the events already emitted
of the burst in progress, which is a burst of the buffer as it now stands (R41, R92, R106, R111). -/
def TraceIsBursts (s : State) : Prop :=
  ∃ images : List Memory, (∀ m ∈ images, m.length = s.chainLength) ∧
    s.trace = images.flatMap burstEvents ++ (burstEvents s.slots).take (eventsDone s.chainLength s.tx)

/-- The pins are where the trace since reset leaves them (R14). -/
def PinsFollowTrace (s : State) : Prop := s.pins = restPins.assignAll s.trace

/-- A state without its ghost records: what is hardware, and the inputs. -/
def State.hardware (s : State) : State := { s with trace := [], responses := [], frameOut := none, past := [] }

/-- An outcome, seen through `f`. -/
def seen {σ τ : Type} (f : σ → τ) : Host.Outcome σ Fault Refusal → Host.Outcome τ Fault Refusal
  | .next s => .next (f s)
  | .fault r => .fault r
  | .refused r => .refused r

/-- `s` with its records of events, responses and earlier epochs put after those of `r`. -/
def State.afterRecordsOf (r s : State) : State :=
  { s with trace := r.trace ++ s.trace, responses := r.responses ++ s.responses, past := r.past ++ s.past }

/-- `s` as if nothing had been recorded yet. -/
def State.withoutRecords (s : State) : State := { s with trace := [], responses := [], past := [] }

/-- An instruction, and then `k` steps. -/
def execThen (i : Instr) (k : Nat) (s : State) : Host.Outcome State Fault Refusal :=
  match exec i s with
  | .next t => steps k t
  | .fault r => .fault r
  | .refused r => .refused r

/-- From `t`, at the beginning of a burst, the sequencer takes exactly `48·N + 2` steps to `Idle`, one event each, in the
order of R90, with no slot changed, no command taken and one `OK` (R90, R99, R100, R101). -/
def BurstRuns (t : State) : Prop :=
  (∀ k < burstSteps t.chainLength, ∃ v, steps k t = .next v ∧ v.tx ≠ .idle ∧ v.slots = t.slots ∧ v.port = t.port ∧
    v.responses = t.responses ∧ v.trace = t.trace ++ (burstEvents t.slots).take k) ∧
  ∃ u, steps (burstSteps t.chainLength) t = .next u ∧ u.tx = .idle ∧ u.slots = t.slots ∧
    u.pins.cs = true ∧ u.pins.clk = false ∧
    t.slots[t.chainLength - 1]?.map (fun f => f.getLsbD 0) = some u.pins.data ∧
    u.trace = t.trace ++ burstEvents t.slots ∧ u.responses = t.responses ++ [.ok] ∧
    u.port = t.port ∧ u.rst = t.rst.drop (burstSteps t.chainLength) ∧ u.past = t.past ∧ u.frameOut = none

/-- `t` is `s` with the frame of `reg` and `data` in the slot of device `dev`, and every other slot as it was (R80,
R81). -/
def SlotInstalled (dev : Nat) (reg : RegAddr) (data : DataByte) (s t : State) : Prop :=
  t.chainLength = s.chainLength ∧ t.slots[dev - 1]? = some (encodeFrame reg data) ∧
  ∀ j, j ≠ dev - 1 → t.slots[j]? = s.slots[j]?

/-- What accepting `i` does when it is a write to a device of the chain: the install, the beginning of the burst and nothing
else, and then, if no reset comes, the whole burst of the buffer with the new frame (R94, R110, R111). -/
def WriteEffect (i : Instr) (dev : Nat) (reg : RegAddr) (data : DataByte) (s : State) : Prop :=
  ∃ t, exec i s = .next t ∧ SlotInstalled dev reg data s t ∧ t.tx = .latchLow ∧
    t.pins = s.pins ∧ t.port = s.port ∧ t.rst = s.rst ∧ t.trace = s.trace ∧ t.responses = s.responses ∧ t.past = s.past ∧
    (NoResetFor (burstSteps s.chainLength) s → BurstRuns t)

/-- `i` is the command WRITE with these operands: its word, its meaning in every state, its completion for a valid device
address and its rejection for another (R62, R110). -/
def IsWriteOf (i : Instr) (dev : Nat) (reg : RegAddr) (data : DataByte) : Prop :=
  encode i = .command (dev * 2 ^ 14 + 0x3000 + reg.toNat * 2 ^ 8 + data.toNat) ∧
  (∀ s, exec i s = exec (.write dev reg data) s) ∧
  (∀ s : State, s.tx = .idle → 1 ≤ dev → dev ≤ s.chainLength → WriteEffect i dev reg data s) ∧
  (∀ s : State, s.tx = .idle → dev < 1 ∨ s.chainLength < dev →
    exec i s = .next { s with responses := s.responses ++ [.addressingError] })

/-- What the host can tell of a state: the parameters, `TX` (through READY), its own inputs and the responses (R5). -/
def State.hostView (s : State) : Nat × Tx × List EncodedWord × List Bool × List Response :=
  (s.chainLength, s.tx, s.port, s.rst, s.responses)

/-- `s` is a state in which a burst can be told from its steps: the block exists and is idle, and reset stays away for the
next `k` steps. -/
def IdleFor (k : Nat) (s : State) : Prop := 1 ≤ s.chainLength ∧ s.tx = .idle ∧ NoResetFor k s

/-- The steps of a whole list of operations. -/
def stepsOfAll (n : Nat) (is : List Instr) : Nat := (is.map (stepsOf n)).sum

/-- A list of operations, each as one transaction. -/
def transactAll (is : List Instr) (s : State) : State := is.foldl (fun t i => transact i t) s

/-- The frame that the last successful install for slot `j` put there (R82, R126): the first one found from the end. -/
def lastInstall (n j : Nat) (is : List Instr) : Option Frame :=
  is.reverse.findSome? fun i =>
    match installOperands i with
    | some (dev, reg, data) =>
      if validDev n dev && slotIndex dev == j then some (encodeFrame reg data) else none
    | none => none

end Sys2Proof.Machine
end

