-- ==== Sys2Proof/Certificates/Slice0/Obligations.lean ====
section
/-! DEFINITION. The statements about the model, for the provers. Each docstring names the rule of spec/ it formalises, and
says where the spec marks that rule as its own derivation or decision, or where a log entry of the model is involved. -/

open Sys2Proof Sys2Proof.Machine

/-! ### Frames and words -/

/-- R73: the top nibble of every frame is 0, the next nibble is `reg`, the low byte is `data`, and in the order sent the
bits are four zeros, `reg[3] … reg[0]`, `data[7] … data[0]`. -/
def Obligations.FrameHasItsFieldsMsbFirst : Prop :=
  ∀ (reg : RegAddr) (data : DataByte),
    (encodeFrame reg data).extractLsb' 12 4 = 0#4 ∧ (encodeFrame reg data).extractLsb' 8 4 = reg ∧
    (encodeFrame reg data).extractLsb' 0 8 = data ∧
    frameBits (encodeFrame reg data) =
      [false, false, false, false, reg.getLsbD 3, reg.getLsbD 2, reg.getLsbD 1, reg.getLsbD 0,
       data.getLsbD 7, data.getLsbD 6, data.getLsbD 5, data.getLsbD 4,
       data.getLsbD 3, data.getLsbD 2, data.getLsbD 1, data.getLsbD 0]

/-- R51 and R72 (the bijection is the spec's derivation): a frame is the number `256·reg + data`; DECODE recovers the
operands of every frame, ENCODE recovers every value with top nibble 0, and DECODE is not valid on any other. -/
def Obligations.FrameDecodeInvertsEncode : Prop :=
  (∀ (reg : RegAddr) (data : DataByte), (encodeFrame reg data).toNat = 256 * reg.toNat + data.toNat ∧
    decodeFrame (encodeFrame reg data) = some (reg, data)) ∧
  ∀ f : Frame,
    (f.toNat < 0x1000 → ∃ reg data, decodeFrame f = some (reg, data) ∧ encodeFrame reg data = f) ∧
    (0x1000 ≤ f.toNat → decodeFrame f = none)

/-- R55, R62, R63, R72: no bit of an encoding is lost. -/
def Obligations.DecodeOfEncodeIsTheInstruction : Prop :=
  ∀ i : Instr, i.wellFormed = true → decode (encode i) = .ok i

/-- R55, R62, R63 (the layout is decision D6, the map the spec's derivation): which instruction a command word is, for every
value of its fields. -/
def Obligations.DecodeNamesCommandsByOpAndReg : Prop :=
  ∀ (dev : Nat) (reg : RegAddr) (data : DataByte),
    let word (op : Nat) : EncodedWord := .command (dev * 2 ^ 14 + op * 2 ^ 12 + reg.toNat * 2 ^ 8 + data.toNat)
    decode (word 0) = .ok .nop ∧ decode (word 1) = .ok .send ∧ decode (word 2) = .ok (.load dev reg data) ∧
    (reg = 0x0#4 → decode (word 3) = .ok (.wrNoop dev data)) ∧
    (reg = 0x1#4 → decode (word 3) = .ok (.wrDig0 dev data)) ∧
    (reg = 0x2#4 → decode (word 3) = .ok (.wrDig1 dev data)) ∧
    (reg = 0x3#4 → decode (word 3) = .ok (.wrDig2 dev data)) ∧
    (reg = 0x4#4 → decode (word 3) = .ok (.wrDig3 dev data)) ∧
    (reg = 0x5#4 → decode (word 3) = .ok (.wrDig4 dev data)) ∧
    (reg = 0x6#4 → decode (word 3) = .ok (.wrDig5 dev data)) ∧
    (reg = 0x7#4 → decode (word 3) = .ok (.wrDig6 dev data)) ∧
    (reg = 0x8#4 → decode (word 3) = .ok (.wrDig7 dev data)) ∧
    (reg = 0x9#4 → decode (word 3) = .ok (.wrDecode dev data)) ∧
    (reg = 0xA#4 → decode (word 3) = .ok (.wrIntensity dev data)) ∧
    (reg = 0xB#4 → decode (word 3) = .ok (.wrScanlimit dev data)) ∧
    (reg = 0xC#4 → decode (word 3) = .ok (.wrShutdown dev data)) ∧
    (reg = 0xD#4 ∨ reg = 0xE#4 → decode (word 3) = .ok (.write dev reg data)) ∧
    (reg = 0xF#4 → decode (word 3) = .ok (.wrDisptest dev data))

/-- R56 (decision D5) and R72: every command word is a command, never ENCODE, and re-encoding what it decodes to gives a
word of the same command; a frame decodes exactly when its top nibble is 0, to the ENCODE that gives it. -/
def Obligations.EveryCommandWordDecodes : Prop :=
  (∀ cw : Nat, ∃ i, decode (.command cw) = .ok i ∧ i.wellFormed = true ∧ decode (encode i) = .ok i ∧
    ∀ reg data, i ≠ .encode reg data) ∧
  ∀ f : Frame,
    (f.toNat < 0x1000 → ∃ reg data, decode (.frame16 f) = .ok (.encode reg data) ∧ encodeFrame reg data = f) ∧
    (0x1000 ≤ f.toNat → decode (.frame16 f) = .error .topNibbleNotZero)

/-- Words of 95_test_vectors.md §2.4, §3 (with `AW = 8`, `dev` in the bits above bit 13), and frames of §2.1. -/
def Obligations.SpecWordsDecodeAsTheSpecSays : Prop :=
  decode (.command 0x0000) = .ok .nop ∧ decode (.command 0x1000) = .ok .send ∧
  decode (.command (0x03 * 0x4000 + 0x2A08)) = .ok (.load 3 0xA#4 0x08#8) ∧
  decode (.command (0x01 * 0x4000 + 0x3D5A)) = .ok (.write 1 0xD#4 0x5A#8) ∧
  decode (.command (0x01 * 0x4000 + 0x31FF)) = .ok (.wrDig0 1 0xFF#8) ∧
  decode (.command (0x02 * 0x4000 + 0x3F01)) = .ok (.wrDisptest 2 0x01#8) ∧
  decode (.frame16 0x01FF#16) = .ok (.encode 0x1#4 0xFF#8)

/-- R55 (decision D6): the low 12 bits of the word of an installing command are the low 12 bits of the frame it installs. -/
def Obligations.CommandWordCarriesItsFrame : Prop :=
  ∀ (i : Instr) (dev : Nat) (reg : RegAddr) (data : DataByte), installOperands i = some (dev, reg, data) →
    ∃ cw, encode i = .command cw ∧ cw % 0x1000 = (encodeFrame reg data).toNat % 0x1000 ∧ cw / 0x4000 = dev

/-! ### The operations -/

/-- R70, R71: ENCODE completes in every state and changes nothing. That its result stands in `frameOut` is the model's choice
(log entry 8). -/
def Obligations.EncodeShowsItsFrameAndNothingElse : Prop :=
  ∀ (reg : RegAddr) (data : DataByte) (s : State),
    exec (.encode reg data) s = .next { s with frameOut := some (encodeFrame reg data) }

/-- R103 (decision D5): NOP responds OK and does nothing else. -/
def Obligations.NopRespondsOkAndNothingElse : Prop :=
  ∀ s : State, s.tx = .idle → exec .nop s = .next { s with responses := s.responses ++ [.ok] }

/-- R81, R83: a LOAD to a device of the chain, the first and the last included, completes, puts its frame in the slot of the
device, and leaves every other slot, `TX`, the pins and the trace as they were; it responds OK (R80). -/
def Obligations.LoadInstallsExactlyOneSlot : Prop :=
  ∀ (dev : Nat) (reg : RegAddr) (data : DataByte) (s : State),
    s.tx = .idle → 1 ≤ dev → dev ≤ s.chainLength →
    ∃ t, exec (.load dev reg data) s = .next t ∧ SlotInstalled dev reg data s t ∧
      t.responses = s.responses ++ [.ok] ∧ t.tx = .idle ∧ t.pins = s.pins ∧ t.trace = s.trace ∧
      t.port = s.port ∧ t.rst = s.rst ∧ t.past = s.past

/-- R84, R144: LOAD, WRITE and every named write with a device address outside `1 … N` respond AddressingError and change
nothing else: no slot, no pin, no event, `TX` stays `Idle`. -/
def Obligations.InvalidDeviceIsRejectedWithoutEffect : Prop :=
  ∀ (i : Instr) (dev : Nat) (reg : RegAddr) (data : DataByte) (s : State),
    installOperands i = some (dev, reg, data) → s.tx = .idle → dev < 1 ∨ s.chainLength < dev →
    exec i s = .next { s with responses := s.responses ++ [.addressingError] }

/-- R90, R94, R101 (R101 is the spec's derivation; SEND as a host command is decision D18): SEND is accepted in `Idle` without
an event, and then runs its whole burst, if no reset comes. -/
def Obligations.SendTransmitsTheWholeBuffer : Prop :=
  ∀ s : State, 1 ≤ s.chainLength → s.tx = .idle →
    exec .send s = .next { s with tx := .latchLow } ∧
    (NoResetFor (burstSteps s.chainLength) s → BurstRuns { s with tx := .latchLow })

/-- R110, R111 (the free `reg` is decision D18): WRITE with any register address installs and transmits, or is rejected. -/
def Obligations.WriteInstallsAndTransmits : Prop :=
  ∀ (dev : Nat) (reg : RegAddr) (data : DataByte), IsWriteOf (.write dev reg data) dev reg data

/-- R113, R122, R124: the three named writes whose register address the source gives. -/
def Obligations.SourcedNamedWritesAreWrites : Prop :=
  ∀ (dev : Nat) (data : DataByte),
    IsWriteOf (.wrDig0 dev data) dev 0x1#4 data ∧ (encodeFrame 0x1#4 data).toNat = 0x0100 + data.toNat ∧
    IsWriteOf (.wrIntensity dev data) dev 0xA#4 data ∧ (encodeFrame 0xA#4 data).toNat = 0x0A00 + data.toNat ∧
    IsWriteOf (.wrShutdown dev data) dev 0xC#4 data ∧ (encodeFrame 0xC#4 data).toNat = 0x0C00 + data.toNat

/-- R112, R114 to R121, R123, R125: the eleven named writes whose register address the spec marks "from general knowledge, not
in source" (D14; log entry 13). -/
def Obligations.OtherNamedWritesAreWrites : Prop :=
  ∀ (dev : Nat) (data : DataByte),
    IsWriteOf (.wrNoop dev data) dev 0x0#4 data ∧ IsWriteOf (.wrDig1 dev data) dev 0x2#4 data ∧
    IsWriteOf (.wrDig2 dev data) dev 0x3#4 data ∧ IsWriteOf (.wrDig3 dev data) dev 0x4#4 data ∧
    IsWriteOf (.wrDig4 dev data) dev 0x5#4 data ∧ IsWriteOf (.wrDig5 dev data) dev 0x6#4 data ∧
    IsWriteOf (.wrDig6 dev data) dev 0x7#4 data ∧ IsWriteOf (.wrDig7 dev data) dev 0x8#4 data ∧
    IsWriteOf (.wrDecode dev data) dev 0x9#4 data ∧ IsWriteOf (.wrScanlimit dev data) dev 0xB#4 data ∧
    IsWriteOf (.wrDisptest dev data) dev 0xF#4 data

/-- R15, R99 (decision D7): a command given while a burst runs has no step; the refusal is the model's (log entry 10). -/
def Obligations.CommandWithoutReadyHasNoStep : Prop :=
  ∀ (i : Instr) (s : State), s.tx ≠ .idle → (∀ reg data, i ≠ .encode reg data) → exec i s = .refused .notReady

/-- R38, R86 (the spec's derivations): the last install for a device decides its slot, whatever register it names, and
installing the same frame twice is installing it once. -/
def Obligations.LastInstallForADeviceWins : Prop :=
  ∀ (dev : Nat) (reg₁ reg₂ : RegAddr) (data₁ data₂ : DataByte) (s : State),
    s.tx = .idle → 1 ≤ dev → dev ≤ s.chainLength →
    ∃ t u v, exec (.load dev reg₁ data₁) s = .next t ∧ exec (.load dev reg₂ data₂) t = .next u ∧
      exec (.load dev reg₂ data₂) s = .next v ∧ u.slots = v.slots ∧ u.slots[dev - 1]? = some (encodeFrame reg₂ data₂)

/-- R145 (the spec's derivation): a rejected command leaves no mark. Whatever the host gives next, as long as no reset comes,
all that follows is what follows without the rejected command: the hardware, the inputs, and every event and every response
added. The two runs are compared through the one that begins at `s` with nothing recorded. -/
def Obligations.RejectedCommandLeavesNoMark : Prop :=
  ∀ (i j : Instr) (dev : Nat) (reg : RegAddr) (data : DataByte) (s : State),
    installOperands i = some (dev, reg, data) → s.tx = .idle → dev < 1 ∨ s.chainLength < dev →
    ∃ t, exec i s = .next t ∧ t.hardware = s.hardware ∧ t.frameOut = s.frameOut ∧ t.trace = s.trace ∧ t.past = s.past ∧
      t.responses = s.responses ++ [.addressingError] ∧
      ∀ k, NoResetFor k s →
        execThen j k s = seen (State.afterRecordsOf s) (execThen j k s.withoutRecords) ∧
        execThen j k t = seen (State.afterRecordsOf t) (execThen j k s.withoutRecords)

/-! ### The step -/

/-- R94: a word presented in `Idle`, when reset is not asserted, is decoded and its instruction is what the step runs; the
step takes the word from the port and one sample of the reset input, and clears the model's `frameOut` (log entries 4, 5, 8). -/
def Obligations.StepRunsTheDecodedInstruction : Prop :=
  ∀ (s : State) (w : EncodedWord) (ws : List EncodedWord) (i : Instr),
    1 ≤ s.chainLength → s.rstNow = false → s.tx = .idle → s.port = w :: ws → decode w = .ok i →
    step s = exec i { s with port := ws, rst := s.rst.tail, frameOut := none }

/-- R95: the `LatchLow` step, and what it leaves alone. -/
def Obligations.LatchLowStepLowersCs : Prop :=
  ∀ s : State, 1 ≤ s.chainLength → s.rstNow = false → s.tx = .latchLow →
    ∃ t, step s = .next t ∧ t.tx = .shift 0 .present ∧
      t.pins = { s.pins with cs := false } ∧ t.trace = s.trace ++ [⟨.cs, false⟩] ∧
      t.slots = s.slots ∧ t.responses = s.responses ∧ t.port = s.port ∧ t.past = s.past

/-- R96: the `Present` step, for every stream time index R13 admits, and what it leaves alone. `bit(t)` is written out by the
formula of R91, which the spec marks as derived. -/
def Obligations.PresentStepDrivesTheStreamBit : Prop :=
  ∀ (s : State) (k : Nat), k < 16 * s.chainLength → s.rstNow = false → s.tx = .shift k .present →
    ∃ f t, s.slots[k / 16]? = some f ∧ step s = .next t ∧ t.tx = .shift k .clkHigh ∧
      t.pins = { s.pins with data := f.getLsbD (15 - k % 16) } ∧
      t.trace = s.trace ++ [⟨.data, f.getLsbD (15 - k % 16)⟩] ∧
      t.slots = s.slots ∧ t.responses = s.responses ∧ t.port = s.port ∧ t.past = s.past

/-- R97: the `ClkHigh` step, and what it leaves alone. -/
def Obligations.ClkHighStepRaisesClk : Prop :=
  ∀ (s : State) (k : Nat), 1 ≤ s.chainLength → s.rstNow = false → s.tx = .shift k .clkHigh →
    ∃ t, step s = .next t ∧ t.tx = .shift k .clkLow ∧
      t.pins = { s.pins with clk := true } ∧ t.trace = s.trace ++ [⟨.clk, true⟩] ∧
      t.slots = s.slots ∧ t.responses = s.responses ∧ t.port = s.port ∧ t.past = s.past

/-- R98: the `ClkLow` step, with both of its successors, and what it leaves alone. -/
def Obligations.ClkLowStepLowersClk : Prop :=
  ∀ (s : State) (k : Nat), 1 ≤ s.chainLength → s.rstNow = false → s.tx = .shift k .clkLow →
    ∃ t, step s = .next t ∧
      (k + 1 < 16 * s.chainLength → t.tx = .shift (k + 1) .present) ∧
      (16 * s.chainLength ≤ k + 1 → t.tx = .latchHigh) ∧
      t.pins = { s.pins with clk := false } ∧ t.trace = s.trace ++ [⟨.clk, false⟩] ∧
      t.slots = s.slots ∧ t.responses = s.responses ∧ t.port = s.port ∧ t.past = s.past

/-- R100 (the moment of the response is decision D24): the `LatchHigh` step, and what it leaves alone. -/
def Obligations.LatchHighStepRaisesCsAndResponds : Prop :=
  ∀ s : State, 1 ≤ s.chainLength → s.rstNow = false → s.tx = .latchHigh →
    ∃ t, step s = .next t ∧ t.tx = .idle ∧
      t.pins = { s.pins with cs := true } ∧ t.trace = s.trace ++ [⟨.cs, true⟩] ∧ t.responses = s.responses ++ [.ok] ∧
      t.slots = s.slots ∧ t.port = s.port ∧ t.past = s.past

/-- The model's choices of log entries 5 and 8: every step takes one sample of the reset input, and shows a frame only when it
runs an ENCODE, or an install for a device of the chain, and then the frame of that very instruction; so a step that runs NOP,
SEND or a rejected install shows none, nor does a reset, a step of a burst or a wait. No frame is carried from one step to the
next (R19, R70). -/
def Obligations.EveryStepTakesOneSampleAndShowsNoOldFrame : Prop :=
  (∀ s t : State, step s = .next t →
    t.rst = s.rst.tail ∧
    ∀ f, t.frameOut = some f → s.rstNow = false ∧ s.tx = .idle ∧ ∃ w ws i reg data, s.port = w :: ws ∧ decode w = .ok i ∧
      f = encodeFrame reg data ∧
      (i = .encode reg data ∨ ∃ dev, installOperands i = some (dev, reg, data) ∧ 1 ≤ dev ∧ dev ≤ s.chainLength)) ∧
  (∀ (s t : State) (w : EncodedWord) (ws : List EncodedWord) (i : Instr),
    step s = .next t → s.port = w :: ws → decode w = .ok i →
    (i = .nop ∨ i = .send ∨
      ∃ dev reg data, installOperands i = some (dev, reg, data) ∧ (dev < 1 ∨ s.chainLength < dev)) →
    t.frameOut = none) ∧
  ∀ (i : Instr) (dev : Nat) (reg : RegAddr) (data : DataByte) (s t : State),
    installOperands i = some (dev, reg, data) → 1 ≤ dev → dev ≤ s.chainLength → exec i s = .next t →
    t.frameOut = some (encodeFrame reg data) ∧ t.rst = s.rst

/-- R99, R101 (R101 is the spec's derivation): in a state of the block there is always a step, but for a presented word that
is no frame. Waiting when nothing is presented is the model's choice (log entry 4), the refusal of the word too (log entry 8). -/
def Obligations.BlockAlwaysHasAStep : Prop :=
  ∀ s : State, Inv s →
    (∃ t, step s = .next t) ∨
    (s.rstNow = false ∧ s.tx = .idle ∧ ∃ f ws, s.port = .frame16 f :: ws ∧ 0x1000 ≤ f.toNat ∧ step s = .refused .notAFrame)

/-- R99 (the handshake is decision D7): while a burst runs, a step takes no command, writes no slot, emits exactly one event,
and responds only when the burst is over. -/
def Obligations.BurstStepTakesNoCommand : Prop :=
  ∀ s : State, Inv s → s.tx ≠ .idle → s.rstNow = false →
    ∃ t e, step s = .next t ∧ t.port = s.port ∧ t.slots = s.slots ∧ t.trace = s.trace ++ [e] ∧
      (t.tx ≠ .idle → t.responses = s.responses) ∧ (t.tx = .idle → s.tx = .latchHigh ∧ t.responses = s.responses ++ [.ok])

/-- R15 (decision D7): a word leaves the port only when READY is 1. -/
def Obligations.WordsAreTakenOnlyWhenReady : Prop :=
  ∀ s t : State, step s = .next t → t.port ≠ s.port → s.ready = true ∧ ∃ w, s.port = w :: t.port

/-- R12: a slot keeps its value until an install for its own device, or a reset. -/
def Obligations.SlotKeepsItsValueUntilInstallOrReset : Prop :=
  ∀ (s t : State) (j : Nat), step s = .next t → s.rstNow = false → t.slots[j]? ≠ s.slots[j]? →
    s.tx = .idle ∧ ∃ w ws i dev reg data, s.port = w :: ws ∧ decode w = .ok i ∧
      installOperands i = some (dev, reg, data) ∧ 1 ≤ dev ∧ dev ≤ s.chainLength ∧ j = dev - 1 ∧
      t.slots[j]? = some (encodeFrame reg data)

/-- R92 (the spec's derivation), D11: outside a reset, `DATA` changes only while `CLK` is low. -/
def Obligations.DataChangesOnlyWhileClkIsLow : Prop :=
  ∀ s t : State, Inv s → step s = .next t → s.rstNow = false → t.pins.data ≠ s.pins.data →
    s.pins.clk = false ∧ t.pins.clk = false

/-- R142 (decision D9): a running block never responds ConfigurationError. -/
def Obligations.RunningBlockNeverRespondsConfigurationError : Prop :=
  ∀ s t : State, step s = .next t → .configurationError ∉ s.responses → .configurationError ∉ t.responses

/-! ### Reset -/

/-- R20 (in part decisions D9 to D11), R58: the state after reset, for the chain length of log entry 1, and the response
codes. -/
def Obligations.ResetStateHoldsTheResetValues : Prop :=
  State.reset.chainLength = Config.chainLength ∧ (∀ f ∈ State.reset.slots, f = 0x0000#16) ∧
  State.reset.tx = .idle ∧ State.reset.pins = { cs := true, clk := false, data := false } ∧
  State.reset.ready = true ∧ State.reset.responses = [] ∧ State.reset.trace = [] ∧
  Response.ok.code = 0 ∧ Response.addressingError.code = 1 ∧ Response.configurationError.code = 2

/-- R142 (decision D9): construction refuses a chain without devices, and otherwise gives a block in the state of R20. That
`step` refuses a state without slots under the same name is the model's choice (log entry 12). -/
def Obligations.ConstructionRefusesAnEmptyChain : Prop :=
  State.construct 0 = .refused .configurationError ∧ (∀ s : State, s.slots = [] → step s = .refused .configurationError) ∧
  ∀ n, 1 ≤ n → ∃ s, State.construct n = .next s ∧ s.chainLength = n ∧ (∀ i < n, s.slots[i]? = some 0x0000#16) ∧
    s.tx = .idle ∧ s.pins = { cs := true, clk := false, data := false } ∧ s.ready = true ∧ s.trace = [] ∧ s.responses = []

/-- R160 to R162 (decisions D9 to D11, D19): reset, asserted in any state, gives the values of R20, and takes no command. -/
def Obligations.ResetFiresInEveryState : Prop :=
  ∀ s : State, 1 ≤ s.chainLength → s.rstNow = true →
    ∃ t, step s = .next t ∧ t.slots = List.replicate s.chainLength 0x0000#16 ∧ t.tx = .idle ∧
      t.pins = { cs := true, clk := false, data := false } ∧ t.trace = [] ∧ t.responses = [] ∧ t.frameOut = none ∧
      t.port = s.port ∧ t.rst = s.rst.tail ∧ s.ready = false

/-- R162 (decision D19), for a reset in every state, whether in `Idle`, in `LatchLow` with `CS` still 1, or later in a burst:
the trace ends with the reset's level changes, one for each pin that is not at its rest level and no other, and the command in
progress gets no response. That `past` keeps what a reset ends, and nothing where nothing had happened, and that `CS` rises
last, is the model's choice (log entry 7). -/
def Obligations.ResetEndsTheTrace : Prop :=
  ∀ s : State, 1 ≤ s.chainLength → s.rstNow = true →
    ∃ t es, step s = .next t ∧
      (s.trace ++ es = [] ∧ s.responses = [] → t.past = s.past) ∧
      (¬ (s.trace ++ es = [] ∧ s.responses = []) →
        t.past = s.past ++ [{ trace := s.trace ++ es, responses := s.responses }]) ∧
      es.Nodup ∧
      (∀ b, (⟨.clk, b⟩ ∈ es ↔ s.pins.clk = true ∧ b = false) ∧ (⟨.data, b⟩ ∈ es ↔ s.pins.data = true ∧ b = false) ∧
        (⟨.cs, b⟩ ∈ es ↔ s.pins.cs = false ∧ b = true)) ∧
      s.pins.assignAll es = { cs := true, clk := false, data := false } ∧
      (s.pins.cs = false → es.getLast? = some ⟨.cs, true⟩)

/-! ### Invariants -/

/-- R11, R13, R17, R20: the invariants hold right after reset, for every chain length. -/
def Obligations.InvariantsHoldAfterReset : Prop :=
  ∀ n, 1 ≤ n → Inv (State.initial n) ∧ TraceIsBursts (State.initial n) ∧ PinsFollowTrace (State.initial n)

/-- R11, R13, R17, R92, R107 (the spec's derivations): every step keeps the buffer's form and the agreement of `TX` with the
pins, resets included. -/
def Obligations.StepKeepsTheInvariant : Prop :=
  ∀ s t : State, Inv s → step s = .next t → Inv t

/-- R41, R92, R99, R106, R111: every step keeps the shape of the trace: whole bursts, none shortened, lengthened or torn. -/
def Obligations.StepKeepsTheTraceWholeBursts : Prop :=
  ∀ s t : State, Inv s → TraceIsBursts s → step s = .next t → TraceIsBursts t

/-- R14 (decision D1): a pin keeps its level until the next event on it, or a reset. -/
def Obligations.StepKeepsPinsWhereTheTraceLeftThem : Prop :=
  ∀ s t : State, PinsFollowTrace s → step s = .next t → PinsFollowTrace t

/-! ### Bursts -/

/-- R92 (the spec's derivation): the shape of a burst, and the level presented at each stream time index (R91). -/
def Obligations.BurstHasTheShapeOfTheSpec : Prop :=
  ∀ m : Memory,
    (burstEvents m).length = 48 * m.length + 2 ∧
    (burstEvents m)[0]? = some ⟨.cs, false⟩ ∧ (burstEvents m)[48 * m.length + 1]? = some ⟨.cs, true⟩ ∧
    (∀ t < 16 * m.length, ∃ f, m[t / 16]? = some f ∧
      (burstEvents m)[3 * t + 1]? = some ⟨.data, f.getLsbD (15 - t % 16)⟩ ∧
      (burstEvents m)[3 * t + 2]? = some ⟨.clk, true⟩ ∧ (burstEvents m)[3 * t + 3]? = some ⟨.clk, false⟩) ∧
    (burstEvents m).countP (fun e => e == ⟨.clk, true⟩) = 16 * m.length ∧
    (burstEvents m).countP (fun e => e == ⟨.clk, false⟩) = 16 * m.length

/-- R34 (decision D16): in significance numbering bit `16·N − 1 − c` of `STREAM` is cell `c`, and device `a` occupies bits
`16·(N−a) + 15 … 16·(N−a)`. -/
def Obligations.StreamIsTheSlotsConcatenated : Prop :=
  ∀ m : Memory,
    (∀ c < 16 * m.length, cellRead m c = some ((streamNumber m).testBit (16 * m.length - 1 - c))) ∧
    ∀ a, 1 ≤ a → a ≤ m.length →
      m[a - 1]? = some (BitVec.ofNat 16 (streamNumber m / 2 ^ (16 * (m.length - a))))

/-- R93: two SENDs with no successful install between them, whatever else the host sends between, emit identical events, and
no slot changes. -/
def Obligations.TransmittingTwiceIsIdentical : Prop :=
  ∀ (s : State) (ws rest : List EncodedWord) (between : List Instr),
    List.Forall₂ (fun w i => decode w = .ok i) ws (.send :: between ++ [.send]) → s.port = ws ++ rest →
    (∀ i ∈ between, ∀ dev reg data, installOperands i = some (dev, reg, data) → dev < 1 ∨ s.chainLength < dev) →
    IdleFor (stepsOfAll s.chainLength (.send :: between ++ [.send])) s →
    ∃ t u v, steps (burstSteps s.chainLength + 1) s = .next t ∧ steps (stepsOfAll s.chainLength between) t = .next u ∧
      steps (burstSteps s.chainLength + 1) u = .next v ∧
      t.trace = s.trace ++ burstEvents s.slots ∧ v.trace = u.trace ++ burstEvents s.slots ∧
      t.slots = s.slots ∧ u.slots = s.slots ∧ v.slots = s.slots

/-- R44, S5, S8: the frame a write installs is in the burst of that very write, at stream time indices `16·(dev−1) …
16·(dev−1) + 15`, most significant bit first. -/
def Obligations.WriteIsReflectedInItsOwnBurst : Prop :=
  ∀ (i : Instr) (dev : Nat) (reg : RegAddr) (data : DataByte) (s : State),
    writeOperands i = some (dev, reg, data) → s.tx = .idle → 1 ≤ dev → dev ≤ s.chainLength →
    NoResetFor (burstSteps s.chainLength) s →
    ∃ t u, exec i s = .next t ∧ steps (burstSteps s.chainLength) t = .next u ∧ u.tx = .idle ∧
      ∀ j < 16, u.trace[s.trace.length + 3 * (16 * (dev - 1) + j) + 1]? =
        some ⟨.data, (encodeFrame reg data).getLsbD (15 - j)⟩

/-! ### Sequences of operations -/

/-- R6, R40, R101 (the spec's derivations): for every list of words the host presents, the machine's micro-steps come to
exactly what the operations do as atomic transactions, one after the other in the host's order. -/
def Obligations.MicroStepsAgreeWithTransactions : Prop :=
  ∀ (s : State) (ws rest : List EncodedWord) (is : List Instr),
    List.Forall₂ (fun w i => decode w = .ok i) ws is → s.port = ws ++ rest →
    IdleFor (stepsOfAll s.chainLength is) s →
    steps (stepsOfAll s.chainLength is) s =
      .next (transactAll is { s with port := rest, rst := s.rst.drop (stepsOfAll s.chainLength is) })

/-- R82, R126: after any list of commands a slot holds the frame of the last successful install for its device, and what it
held before if there was none, which after reset is 0, no matter how many bursts were sent in between. -/
def Obligations.SlotsHoldTheLastInstalledFrames : Prop :=
  ∀ (s : State) (ws rest : List EncodedWord) (is : List Instr),
    List.Forall₂ (fun w i => decode w = .ok i) ws is → s.port = ws ++ rest →
    IdleFor (stepsOfAll s.chainLength is) s →
    ∃ u, steps (stepsOfAll s.chainLength is) s = .next u ∧ u.chainLength = s.chainLength ∧
      ∀ j < s.chainLength, u.slots[j]? = (lastInstall s.chainLength j is).or s.slots[j]? ∧
        (s.slots = List.replicate s.chainLength 0x0000#16 →
          u.slots[j]? = some ((lastInstall s.chainLength j is).getD 0x0000#16))

/-- R141 (decisions D8, D24): every command of a list gets exactly one response, OK or AddressingError, in order. -/
def Obligations.EveryCommandGetsOneResponse : Prop :=
  ∀ (s : State) (ws rest : List EncodedWord) (is : List Instr),
    List.Forall₂ (fun w i => decode w = .ok i) ws is → s.port = ws ++ rest →
    IdleFor (stepsOfAll s.chainLength is) s →
    ∃ u, steps (stepsOfAll s.chainLength is) s = .next u ∧ u.tx = .idle ∧
      u.responses = s.responses ++ is.flatMap (responsesOf s.chainLength)

/-! ### Isolation -/

/-- R16, R18, R19: no rule reads the records of what was emitted and answered. Two states with the same hardware and inputs
step to states with the same hardware and inputs; and, when no reset ends the records, the events and responses a step adds
do not depend on those already recorded. -/
def Obligations.StepReadsNoGhostRecord : Prop :=
  (∀ s s' : State, s.hardware = s'.hardware → seen State.hardware (step s) = seen State.hardware (step s')) ∧
  ∀ r s : State, s.rstNow = false →
    step (State.afterRecordsOf r s) = seen (State.afterRecordsOf r) (step s)

/-- R5, R130, R132: what the host sees, READY and the responses and how long a burst takes, does not depend on what any slot
or pin holds: there is no read-back. -/
def Obligations.HostLearnsNothingOfTheSlots : Prop :=
  ∀ s s' : State, s.hostView = s'.hostView → seen State.hostView (step s) = seen State.hostView (step s')

/-! ### The chips, under the environment assumption of R104 and R105 (log entry 14) -/

/-- R104, R105 (the spec's derivations, under the environment model and D21): if the chain has `N` chips and the timing
contract is kept, then a burst leaves `STREAM` in the chain, and every device `a` has latched `SLOT[a − 1]`. -/
def Obligations.BurstDeliversEverySlotToItsDevice : Prop :=
  ∀ w : World, Inv w.block → w.block.tx = .latchLow → NoResetFor (burstSteps w.block.chainLength) w.block →
    w.chain.length = w.block.chainLength → w.chain.timingKept = true →
    ∃ v, w.steps (burstSteps w.block.chainLength) = .next v ∧ v.block.tx = .idle ∧
      v.chain.cells = (streamBits w.block.slots).reverse ∧ v.chain.latched = w.block.slots

/-- R42, R143, R160, R162, U5: the chips see nothing of a step in `Idle`, a LOAD, a rejected command or a reset included; a
reset during a burst leaves them with any value (the free values are the model's, log entry 14). -/
def Obligations.ChipsSeeOnlyBursts : Prop :=
  ∀ w v : World, Inv w.block → w.step = .next v →
    (w.block.tx = .idle → v.chain = w.chain) ∧
    (w.block.tx ≠ .idle → w.block.rstNow = true → v.chain = w.chain.forget)
end

