-- ==== Sys2Proof/Laws/State.lean ====
section
/-! SUPPORT. What each update of the state leaves in each field: one lemma per field per update. -/

namespace Sys2Proof.Machine

@[simp] theorem Pins.assign_cs (p : Pins) (b : Level) : p.assign ⟨.cs, b⟩ = { p with cs := b } := rfl
@[simp] theorem Pins.assign_clk (p : Pins) (b : Level) : p.assign ⟨.clk, b⟩ = { p with clk := b } := rfl
@[simp] theorem Pins.assign_data (p : Pins) (b : Level) : p.assign ⟨.data, b⟩ = { p with data := b } := rfl

@[simp] theorem emit_slots (p : Pin) (b : Level) (s : State) : (emit p b s).slots = s.slots := rfl
@[simp] theorem emit_tx (p : Pin) (b : Level) (s : State) : (emit p b s).tx = s.tx := rfl
@[simp] theorem emit_pins (p : Pin) (b : Level) (s : State) : (emit p b s).pins = s.pins.assign ⟨p, b⟩ := rfl
@[simp] theorem emit_port (p : Pin) (b : Level) (s : State) : (emit p b s).port = s.port := rfl
@[simp] theorem emit_rst (p : Pin) (b : Level) (s : State) : (emit p b s).rst = s.rst := rfl
@[simp] theorem emit_trace (p : Pin) (b : Level) (s : State) : (emit p b s).trace = s.trace ++ [⟨p, b⟩] := rfl
@[simp] theorem emit_responses (p : Pin) (b : Level) (s : State) : (emit p b s).responses = s.responses := rfl
@[simp] theorem emit_frameOut (p : Pin) (b : Level) (s : State) : (emit p b s).frameOut = s.frameOut := rfl
@[simp] theorem emit_past (p : Pin) (b : Level) (s : State) : (emit p b s).past = s.past := rfl
@[simp] theorem emit_chainLength (p : Pin) (b : Level) (s : State) : (emit p b s).chainLength = s.chainLength := rfl

@[simp] theorem respond_slots (c : Response) (s : State) : (respond c s).slots = s.slots := rfl
@[simp] theorem respond_tx (c : Response) (s : State) : (respond c s).tx = s.tx := rfl
@[simp] theorem respond_pins (c : Response) (s : State) : (respond c s).pins = s.pins := rfl
@[simp] theorem respond_port (c : Response) (s : State) : (respond c s).port = s.port := rfl
@[simp] theorem respond_rst (c : Response) (s : State) : (respond c s).rst = s.rst := rfl
@[simp] theorem respond_trace (c : Response) (s : State) : (respond c s).trace = s.trace := rfl
@[simp] theorem respond_responses (c : Response) (s : State) : (respond c s).responses = s.responses ++ [c] := rfl
@[simp] theorem respond_frameOut (c : Response) (s : State) : (respond c s).frameOut = s.frameOut := rfl
@[simp] theorem respond_past (c : Response) (s : State) : (respond c s).past = s.past := rfl
@[simp] theorem respond_chainLength (c : Response) (s : State) : (respond c s).chainLength = s.chainLength := rfl

@[simp] theorem setTx_slots (x : Tx) (s : State) : (setTx x s).slots = s.slots := rfl
@[simp] theorem setTx_tx (x : Tx) (s : State) : (setTx x s).tx = x := rfl
@[simp] theorem setTx_pins (x : Tx) (s : State) : (setTx x s).pins = s.pins := rfl
@[simp] theorem setTx_port (x : Tx) (s : State) : (setTx x s).port = s.port := rfl
@[simp] theorem setTx_rst (x : Tx) (s : State) : (setTx x s).rst = s.rst := rfl
@[simp] theorem setTx_trace (x : Tx) (s : State) : (setTx x s).trace = s.trace := rfl
@[simp] theorem setTx_responses (x : Tx) (s : State) : (setTx x s).responses = s.responses := rfl
@[simp] theorem setTx_frameOut (x : Tx) (s : State) : (setTx x s).frameOut = s.frameOut := rfl
@[simp] theorem setTx_past (x : Tx) (s : State) : (setTx x s).past = s.past := rfl
@[simp] theorem setTx_chainLength (x : Tx) (s : State) : (setTx x s).chainLength = s.chainLength := rfl

@[simp] theorem showFrame_slots (f : Frame) (s : State) : (showFrame f s).slots = s.slots := rfl
@[simp] theorem showFrame_tx (f : Frame) (s : State) : (showFrame f s).tx = s.tx := rfl
@[simp] theorem showFrame_pins (f : Frame) (s : State) : (showFrame f s).pins = s.pins := rfl
@[simp] theorem showFrame_port (f : Frame) (s : State) : (showFrame f s).port = s.port := rfl
@[simp] theorem showFrame_rst (f : Frame) (s : State) : (showFrame f s).rst = s.rst := rfl
@[simp] theorem showFrame_trace (f : Frame) (s : State) : (showFrame f s).trace = s.trace := rfl
@[simp] theorem showFrame_responses (f : Frame) (s : State) : (showFrame f s).responses = s.responses := rfl
@[simp] theorem showFrame_frameOut (f : Frame) (s : State) : (showFrame f s).frameOut = some f := rfl
@[simp] theorem showFrame_past (f : Frame) (s : State) : (showFrame f s).past = s.past := rfl
@[simp] theorem showFrame_chainLength (f : Frame) (s : State) : (showFrame f s).chainLength = s.chainLength := rfl

@[simp] theorem hideFrame_slots (s : State) : (hideFrame s).slots = s.slots := rfl
@[simp] theorem hideFrame_tx (s : State) : (hideFrame s).tx = s.tx := rfl
@[simp] theorem hideFrame_pins (s : State) : (hideFrame s).pins = s.pins := rfl
@[simp] theorem hideFrame_port (s : State) : (hideFrame s).port = s.port := rfl
@[simp] theorem hideFrame_rst (s : State) : (hideFrame s).rst = s.rst := rfl
@[simp] theorem hideFrame_trace (s : State) : (hideFrame s).trace = s.trace := rfl
@[simp] theorem hideFrame_responses (s : State) : (hideFrame s).responses = s.responses := rfl
@[simp] theorem hideFrame_frameOut (s : State) : (hideFrame s).frameOut = none := rfl
@[simp] theorem hideFrame_past (s : State) : (hideFrame s).past = s.past := rfl
@[simp] theorem hideFrame_chainLength (s : State) : (hideFrame s).chainLength = s.chainLength := rfl

@[simp] theorem raiseError_slots (e : Response) (s : State) : (raiseError e s).slots = s.slots := rfl
@[simp] theorem raiseError_tx (e : Response) (s : State) : (raiseError e s).tx = s.tx := rfl
@[simp] theorem raiseError_pins (e : Response) (s : State) : (raiseError e s).pins = s.pins := rfl
@[simp] theorem raiseError_port (e : Response) (s : State) : (raiseError e s).port = s.port := rfl
@[simp] theorem raiseError_rst (e : Response) (s : State) : (raiseError e s).rst = s.rst := rfl
@[simp] theorem raiseError_trace (e : Response) (s : State) : (raiseError e s).trace = s.trace := rfl
@[simp] theorem raiseError_responses (e : Response) (s : State) : (raiseError e s).responses = s.responses ++ [e] := rfl
@[simp] theorem raiseError_frameOut (e : Response) (s : State) : (raiseError e s).frameOut = s.frameOut := rfl
@[simp] theorem raiseError_past (e : Response) (s : State) : (raiseError e s).past = s.past := rfl
@[simp] theorem raiseError_chainLength (e : Response) (s : State) : (raiseError e s).chainLength = s.chainLength := rfl

@[simp] theorem install_slots (dev : Nat) (reg : RegAddr) (data : DataByte) (s : State) : (install dev reg data s).slots = s.slots.set (slotIndex dev) (encodeFrame reg data) := rfl
@[simp] theorem install_tx (dev : Nat) (reg : RegAddr) (data : DataByte) (s : State) : (install dev reg data s).tx = s.tx := rfl
@[simp] theorem install_pins (dev : Nat) (reg : RegAddr) (data : DataByte) (s : State) : (install dev reg data s).pins = s.pins := rfl
@[simp] theorem install_port (dev : Nat) (reg : RegAddr) (data : DataByte) (s : State) : (install dev reg data s).port = s.port := rfl
@[simp] theorem install_rst (dev : Nat) (reg : RegAddr) (data : DataByte) (s : State) : (install dev reg data s).rst = s.rst := rfl
@[simp] theorem install_trace (dev : Nat) (reg : RegAddr) (data : DataByte) (s : State) : (install dev reg data s).trace = s.trace := rfl
@[simp] theorem install_responses (dev : Nat) (reg : RegAddr) (data : DataByte) (s : State) : (install dev reg data s).responses = s.responses := rfl
@[simp] theorem install_frameOut (dev : Nat) (reg : RegAddr) (data : DataByte) (s : State) : (install dev reg data s).frameOut = some (encodeFrame reg data) := rfl
@[simp] theorem install_past (dev : Nat) (reg : RegAddr) (data : DataByte) (s : State) : (install dev reg data s).past = s.past := rfl
@[simp] theorem install_chainLength (dev : Nat) (reg : RegAddr) (data : DataByte) (s : State) : (install dev reg data s).chainLength = s.chainLength := by simp [State.chainLength]

@[simp] theorem sampled_slots (s : State) : s.sampled.slots = s.slots := rfl
@[simp] theorem sampled_tx (s : State) : s.sampled.tx = s.tx := rfl
@[simp] theorem sampled_pins (s : State) : s.sampled.pins = s.pins := rfl
@[simp] theorem sampled_port (s : State) : s.sampled.port = s.port := rfl
@[simp] theorem sampled_rst (s : State) : s.sampled.rst = s.rst.tail := rfl
@[simp] theorem sampled_trace (s : State) : s.sampled.trace = s.trace := rfl
@[simp] theorem sampled_responses (s : State) : s.sampled.responses = s.responses := rfl
@[simp] theorem sampled_frameOut (s : State) : s.sampled.frameOut = none := rfl
@[simp] theorem sampled_past (s : State) : s.sampled.past = s.past := rfl
@[simp] theorem sampled_chainLength (s : State) : s.sampled.chainLength = s.chainLength := rfl

@[simp] theorem takingWord_slots (s : State) (ws : List EncodedWord) : (s.takingWord ws).slots = s.slots := rfl
@[simp] theorem takingWord_tx (s : State) (ws : List EncodedWord) : (s.takingWord ws).tx = s.tx := rfl
@[simp] theorem takingWord_pins (s : State) (ws : List EncodedWord) : (s.takingWord ws).pins = s.pins := rfl
@[simp] theorem takingWord_port (s : State) (ws : List EncodedWord) : (s.takingWord ws).port = ws := rfl
@[simp] theorem takingWord_rst (s : State) (ws : List EncodedWord) : (s.takingWord ws).rst = s.rst.tail := rfl
@[simp] theorem takingWord_trace (s : State) (ws : List EncodedWord) : (s.takingWord ws).trace = s.trace := rfl
@[simp] theorem takingWord_responses (s : State) (ws : List EncodedWord) : (s.takingWord ws).responses = s.responses := rfl
@[simp] theorem takingWord_frameOut (s : State) (ws : List EncodedWord) : (s.takingWord ws).frameOut = none := rfl
@[simp] theorem takingWord_past (s : State) (ws : List EncodedWord) : (s.takingWord ws).past = s.past := rfl
@[simp] theorem takingWord_chainLength (s : State) (ws : List EncodedWord) : (s.takingWord ws).chainLength = s.chainLength := rfl

@[simp] theorem applyReset_slots (s : State) : (applyReset s).slots = List.replicate s.chainLength 0x0000#16 := rfl
@[simp] theorem applyReset_tx (s : State) : (applyReset s).tx = .idle := rfl
@[simp] theorem applyReset_pins (s : State) : (applyReset s).pins = restPins := rfl
@[simp] theorem applyReset_port (s : State) : (applyReset s).port = s.port := rfl
@[simp] theorem applyReset_rst (s : State) : (applyReset s).rst = s.rst := rfl
@[simp] theorem applyReset_trace (s : State) : (applyReset s).trace = [] := rfl
@[simp] theorem applyReset_responses (s : State) : (applyReset s).responses = [] := rfl
@[simp] theorem applyReset_frameOut (s : State) : (applyReset s).frameOut = none := rfl
@[simp] theorem applyReset_past (s : State) : (applyReset s).past = s.pastAtReset := rfl
@[simp] theorem applyReset_chainLength (s : State) : (applyReset s).chainLength = s.chainLength := by simp [State.chainLength]

@[simp] theorem hardware_slots (s : State) : s.hardware.slots = s.slots := rfl
@[simp] theorem hardware_tx (s : State) : s.hardware.tx = s.tx := rfl
@[simp] theorem hardware_pins (s : State) : s.hardware.pins = s.pins := rfl
@[simp] theorem hardware_port (s : State) : s.hardware.port = s.port := rfl
@[simp] theorem hardware_rst (s : State) : s.hardware.rst = s.rst := rfl
@[simp] theorem hardware_trace (s : State) : s.hardware.trace = [] := rfl
@[simp] theorem hardware_responses (s : State) : s.hardware.responses = [] := rfl
@[simp] theorem hardware_frameOut (s : State) : s.hardware.frameOut = none := rfl
@[simp] theorem hardware_past (s : State) : s.hardware.past = [] := rfl
@[simp] theorem hardware_chainLength (s : State) : s.hardware.chainLength = s.chainLength := rfl

@[simp] theorem afterRecordsOf_slots (r s : State) : (State.afterRecordsOf r s).slots = s.slots := rfl
@[simp] theorem afterRecordsOf_tx (r s : State) : (State.afterRecordsOf r s).tx = s.tx := rfl
@[simp] theorem afterRecordsOf_pins (r s : State) : (State.afterRecordsOf r s).pins = s.pins := rfl
@[simp] theorem afterRecordsOf_port (r s : State) : (State.afterRecordsOf r s).port = s.port := rfl
@[simp] theorem afterRecordsOf_rst (r s : State) : (State.afterRecordsOf r s).rst = s.rst := rfl
@[simp] theorem afterRecordsOf_trace (r s : State) : (State.afterRecordsOf r s).trace = r.trace ++ s.trace := rfl
@[simp] theorem afterRecordsOf_responses (r s : State) : (State.afterRecordsOf r s).responses = r.responses ++ s.responses := rfl
@[simp] theorem afterRecordsOf_frameOut (r s : State) : (State.afterRecordsOf r s).frameOut = s.frameOut := rfl
@[simp] theorem afterRecordsOf_past (r s : State) : (State.afterRecordsOf r s).past = r.past ++ s.past := rfl
@[simp] theorem afterRecordsOf_chainLength (r s : State) : (State.afterRecordsOf r s).chainLength = s.chainLength := rfl
@[simp] theorem afterRecordsOf_rstNow (r s : State) : (State.afterRecordsOf r s).rstNow = s.rstNow := rfl

@[simp] theorem withoutRecords_slots (s : State) : s.withoutRecords.slots = s.slots := rfl
@[simp] theorem withoutRecords_tx (s : State) : s.withoutRecords.tx = s.tx := rfl
@[simp] theorem withoutRecords_pins (s : State) : s.withoutRecords.pins = s.pins := rfl
@[simp] theorem withoutRecords_port (s : State) : s.withoutRecords.port = s.port := rfl
@[simp] theorem withoutRecords_rst (s : State) : s.withoutRecords.rst = s.rst := rfl
@[simp] theorem withoutRecords_trace (s : State) : s.withoutRecords.trace = [] := rfl
@[simp] theorem withoutRecords_responses (s : State) : s.withoutRecords.responses = [] := rfl
@[simp] theorem withoutRecords_frameOut (s : State) : s.withoutRecords.frameOut = s.frameOut := rfl
@[simp] theorem withoutRecords_past (s : State) : s.withoutRecords.past = [] := rfl
@[simp] theorem withoutRecords_chainLength (s : State) : s.withoutRecords.chainLength = s.chainLength := rfl
@[simp] theorem withoutRecords_rstNow (s : State) : s.withoutRecords.rstNow = s.rstNow := rfl

/-- Every state is itself without records, put after its own. -/
theorem afterRecordsOf_withoutRecords (s : State) : State.afterRecordsOf s s.withoutRecords = s := by
  simp [State.afterRecordsOf, State.withoutRecords]

theorem afterRecordsOf_sampled (r s : State) : (State.afterRecordsOf r s).sampled = State.afterRecordsOf r s.sampled := rfl

theorem afterRecordsOf_takingWord (r s : State) (ws : List EncodedWord) :
    (State.afterRecordsOf r s).takingWord ws = State.afterRecordsOf r (s.takingWord ws) := rfl

end Sys2Proof.Machine
end

