-- ==== Sys2Proof/Laws/Frame.lean ====
section
/-! SUPPORT. The frame functions: what each bit and field of a frame is. -/

namespace Sys2Proof.Machine

theorem toNat_encodeFrame (reg : RegAddr) (data : DataByte) :
    (encodeFrame reg data).toNat = 256 * reg.toNat + data.toNat := by
  have hd := data.isLt
  simp only [encodeFrame, BitVec.toNat_append, BitVec.toNat_ofNat, Nat.zero_mod, Nat.zero_shiftLeft, Nat.zero_or]
  rw [← Nat.shiftLeft_add_eq_or_of_lt (by simpa using hd), Nat.shiftLeft_eq]
  omega

theorem encodeFrame_topNibble (reg : RegAddr) (data : DataByte) : (encodeFrame reg data).extractLsb' 12 4 = 0#4 := by
  apply BitVec.eq_of_toNat_eq
  have hr := reg.isLt
  have hd := data.isLt
  simp only [BitVec.extractLsb'_toNat, toNat_encodeFrame, Nat.shiftRight_eq_div_pow, BitVec.toNat_ofNat]
  omega

theorem encodeFrame_reg (reg : RegAddr) (data : DataByte) : (encodeFrame reg data).extractLsb' 8 4 = reg := by
  apply BitVec.eq_of_toNat_eq
  have hr := reg.isLt
  have hd := data.isLt
  simp only [BitVec.extractLsb'_toNat, toNat_encodeFrame, Nat.shiftRight_eq_div_pow]
  omega

theorem encodeFrame_data (reg : RegAddr) (data : DataByte) : (encodeFrame reg data).extractLsb' 0 8 = data := by
  apply BitVec.eq_of_toNat_eq
  have hd := data.isLt
  simp only [BitVec.extractLsb'_toNat, toNat_encodeFrame, Nat.shiftRight_eq_div_pow]
  omega

theorem decodeFrame_encodeFrame (reg : RegAddr) (data : DataByte) :
    decodeFrame (encodeFrame reg data) = some (reg, data) := by
  rw [decodeFrame, encodeFrame_topNibble, encodeFrame_reg, encodeFrame_data, if_pos rfl]

theorem frameBits_length (f : Frame) : (frameBits f).length = 16 := rfl

theorem frameBits_getElem? (f : Frame) {j : Nat} (hj : j < 16) : (frameBits f)[j]? = some (f.getLsbD (15 - j)) := by
  simp [frameBits, hj]

theorem validDev_iff {n dev : Nat} : validDev n dev = true ↔ 1 ≤ dev ∧ dev ≤ n := by simp [validDev]

theorem validDev_false_iff {n dev : Nat} : validDev n dev = false ↔ dev < 1 ∨ n < dev := by
  simp only [validDev, Bool.and_eq_false_iff, decide_eq_false_iff_not, Nat.not_le]

theorem slotIndex_lt {n dev : Nat} (h : validDev n dev = true) : slotIndex dev < n := by
  obtain ⟨h1, h2⟩ := validDev_iff.mp h
  unfold slotIndex; omega

end Sys2Proof.Machine
end

