-- ==== Sys2Proof/Laws/Buffer.lean ====
section
/-! SUPPORT. The buffer: its form, its bit cells in transmission order, and the events of a burst of it. -/

namespace Sys2Proof.Machine

/-! ### The buffer's form -/

theorem Memory.wf_iff {m : Memory} :
    m.wf = true ↔ 1 ≤ m.length ∧ ∀ f ∈ m, f.extractLsb' 12 4 = 0#4 := by
  simp [Memory.wf]

theorem Memory.wf_set {m : Memory} (h : m.wf = true) (i : Nat) (reg : RegAddr) (data : DataByte) :
    Memory.wf (m.set i (encodeFrame reg data)) = true := by
  rw [Memory.wf_iff] at h ⊢
  refine ⟨by simpa using h.1, fun f hf => ?_⟩
  rcases List.mem_or_eq_of_mem_set hf with hm | rfl
  · exact h.2 f hm
  · exact encodeFrame_topNibble reg data

theorem Memory.wf_replicate {n : Nat} (h : 1 ≤ n) : Memory.wf (List.replicate n 0x0000#16) = true := by
  rw [Memory.wf_iff]
  refine ⟨by simpa using h, fun f hf => ?_⟩
  rw [List.eq_of_mem_replicate hf]; decide

/-- The buffer right after reset has its form, for every chain length. -/
theorem initial_wf {n : Nat} (h : 1 ≤ n) : (State.initial n).slots.wf = true := Memory.wf_replicate h

theorem reset_wf : State.reset.slots.wf = true := initial_wf (by decide)

/-- Installing keeps the buffer's form (R11). -/
theorem install_wf {s : State} (h : s.slots.wf = true) (dev : Nat) (reg : RegAddr) (data : DataByte) :
    (install dev reg data s).slots.wf = true := Memory.wf_set h _ reg data

/-- Reset keeps the buffer's form. -/
theorem applyReset_wf {s : State} (h : s.slots.wf = true) : (applyReset s).slots.wf = true :=
  Memory.wf_replicate (Memory.wf_iff.mp h).1

/-! ### Bit cells in transmission order -/

theorem cellRead_eq_some {m : Memory} {c : Nat} (h : c < 16 * m.length) : ∃ b, cellRead m c = some b := by
  have : c / 16 < m.length := by omega
  exact ⟨_, by rw [cellRead, List.getElem?_eq_getElem this]; rfl⟩

theorem cellRead_eq_none {m : Memory} {c : Nat} (h : 16 * m.length ≤ c) : cellRead m c = none := by
  have : m.length ≤ c / 16 := by omega
  rw [cellRead, List.getElem?_eq_none this]; rfl

theorem streamBits_cons (f : Frame) (m : Memory) : streamBits (f :: m) = frameBits f ++ streamBits m := rfl

theorem streamBits_length (m : Memory) : (streamBits m).length = 16 * m.length := by
  induction m with
  | nil => rfl
  | cons f m ih => rw [streamBits_cons, List.length_append, ih, frameBits_length, List.length_cons]; omega

/-- The bit multiplexer reads the stream bit by bit (R33, R35, R91). -/
theorem streamBits_getElem? (m : Memory) (c : Nat) : (streamBits m)[c]? = cellRead m c := by
  induction m generalizing c with
  | nil => rfl
  | cons f m ih =>
    rw [streamBits_cons]
    by_cases h : c < 16
    · rw [List.getElem?_append_left (by simpa [frameBits_length] using h), frameBits_getElem? f h, cellRead,
        Nat.div_eq_of_lt h, Nat.mod_eq_of_lt h]; rfl
    · rw [List.getElem?_append_right (by rw [frameBits_length]; omega), ih, frameBits_length, cellRead, cellRead]
      have h1 : c / 16 = (c - 16) / 16 + 1 := by omega
      have h2 : (c - 16) % 16 = c % 16 := by omega
      rw [h1, List.getElem?_cons_succ, h2]

/-! ### The events of a burst -/

theorem bitsEvents_length (bs : List Level) : (bs.flatMap bitEvents).length = 3 * bs.length := by
  induction bs with
  | nil => rfl
  | cons b bs ih => rw [List.flatMap_cons, List.length_append, ih, List.length_cons]; simp [bitEvents]; omega

theorem bitsEvents_getElem? (bs : List Level) {t : Nat} {b : Level} (h : bs[t]? = some b) :
    (bs.flatMap bitEvents)[3 * t]? = some ⟨.data, b⟩ ∧ (bs.flatMap bitEvents)[3 * t + 1]? = some ⟨.clk, true⟩
      ∧ (bs.flatMap bitEvents)[3 * t + 2]? = some ⟨.clk, false⟩ := by
  induction bs generalizing t with
  | nil => simp at h
  | cons a bs ih =>
    cases t with
    | zero => simp at h; subst h; simp [bitEvents]
    | succ t =>
      simp only [List.getElem?_cons_succ] at h
      obtain ⟨h0, h1, h2⟩ := ih h
      rw [List.flatMap_cons]
      refine ⟨?_, ?_, ?_⟩
      · rw [List.getElem?_append_right (by simp [bitEvents])]
        simpa [bitEvents, Nat.mul_add] using h0
      · rw [List.getElem?_append_right (by simp [bitEvents]; omega)]
        have : 3 * (t + 1) + 1 - (bitEvents a).length = 3 * t + 1 := by simp [bitEvents]; omega
        rw [this]; exact h1
      · rw [List.getElem?_append_right (by simp [bitEvents]; omega)]
        have : 3 * (t + 1) + 2 - (bitEvents a).length = 3 * t + 2 := by simp [bitEvents]; omega
        rw [this]; exact h2

theorem burstEvents_length (m : Memory) : (burstEvents m).length = 48 * m.length + 2 := by
  simp only [burstEvents, List.length_append, List.length_cons, List.length_nil, bitsEvents_length, streamBits_length]
  omega

theorem burstEvents_first (m : Memory) : (burstEvents m)[0]? = some ⟨.cs, false⟩ := rfl

theorem burstEvents_last (m : Memory) : (burstEvents m)[48 * m.length + 1]? = some ⟨.cs, true⟩ := by
  have h : (⟨.cs, false⟩ :: (streamBits m).flatMap bitEvents : List PinEvent).length = 48 * m.length + 1 := by
    simp only [List.length_cons, bitsEvents_length, streamBits_length]; omega
  rw [burstEvents, List.getElem?_append_right (by omega), h]; simp

/-- The three events of bit `t` stand at places `3t + 1`, `3t + 2`, `3t + 3` of the burst. -/
theorem burstEvents_bit {m : Memory} {t : Nat} {b : Level} (h : cellRead m t = some b) :
    (burstEvents m)[3 * t + 1]? = some ⟨.data, b⟩ ∧ (burstEvents m)[3 * t + 2]? = some ⟨.clk, true⟩
      ∧ (burstEvents m)[3 * t + 3]? = some ⟨.clk, false⟩ := by
  have ht : t < 16 * m.length := by
    by_contra hn
    rw [cellRead_eq_none (by omega)] at h; cases h
  rw [← streamBits_getElem?] at h
  have hb := bitsEvents_getElem? _ h
  have hl : ((streamBits m).flatMap bitEvents).length = 48 * m.length := by
    rw [bitsEvents_length, streamBits_length]; omega
  simp only [burstEvents, List.cons_append]
  refine ⟨?_, ?_, ?_⟩ <;>
    rw [List.getElem?_cons_succ, List.getElem?_append_left (by omega)]
  exacts [hb.1, hb.2.1, hb.2.2]

/-- One more event of the burst. -/
theorem burstEvents_take_succ {m : Memory} {k : Nat} {e : PinEvent} (h : (burstEvents m)[k]? = some e) :
    (burstEvents m).take (k + 1) = (burstEvents m).take k ++ [e] := by
  rw [List.take_add_one, h]; rfl

theorem burstEvents_take_all (m : Memory) : (burstEvents m).take (48 * m.length + 2) = burstEvents m := by
  rw [← burstEvents_length m, List.take_length]

end Sys2Proof.Machine
end

