-- ==== Sys2Proof/Laws/Commands.lean ====
section
/-! SUPPORT. What the meanings answer: at `Idle` always a next state, elsewhere the refusal (but for ENCODE). -/

namespace Sys2Proof.Machine

/-- WRITE and the named writes are one operation (R62). -/
theorem exec_of_writeOperands {i : Instr} {dev : Nat} {reg : RegAddr} {data : DataByte}
    (h : writeOperands i = some (dev, reg, data)) (s : State) : exec i s = registerWrite dev reg data s := by
  cases i <;> simp only [writeOperands, Option.some.injEq, Prod.mk.injEq, reduceCtorEq] at h <;>
    obtain ⟨rfl, rfl, rfl⟩ := h <;> rfl

theorem whenReady_idle {s : State} (h : s.tx = .idle) (t : State) : whenReady s t = .next t := if_pos h

theorem whenReady_busy {s : State} (h : s.tx ≠ .idle) (t : State) : whenReady s t = .refused .notReady := if_neg h

theorem acceptLoad_valid {dev : Nat} {s : State} (h : validDev s.chainLength dev = true) (reg : RegAddr) (data : DataByte) :
    acceptLoad dev reg data s = respond .ok (install dev reg data s) := if_pos h

theorem acceptLoad_invalid {dev : Nat} {s : State} (h : validDev s.chainLength dev = false) (reg : RegAddr)
    (data : DataByte) : acceptLoad dev reg data s = raiseError .addressingError s := by simp [acceptLoad, h]

theorem acceptWrite_valid {dev : Nat} {s : State} (h : validDev s.chainLength dev = true) (reg : RegAddr) (data : DataByte) :
    acceptWrite dev reg data s = setTx .latchLow (install dev reg data s) := if_pos h

theorem acceptWrite_invalid {dev : Nat} {s : State} (h : validDev s.chainLength dev = false) (reg : RegAddr)
    (data : DataByte) : acceptWrite dev reg data s = raiseError .addressingError s := by simp [acceptWrite, h]

theorem transactWrite_valid {dev : Nat} {s : State} (h : validDev s.chainLength dev = true) (reg : RegAddr)
    (data : DataByte) : transactWrite dev reg data s = transmit (install dev reg data s) := if_pos h

theorem transactWrite_invalid {dev : Nat} {s : State} (h : validDev s.chainLength dev = false) (reg : RegAddr)
    (data : DataByte) : transactWrite dev reg data s = raiseError .addressingError s := by simp [transactWrite, h]

/-- The effect of accepting an operation in `Idle` (R94). -/
def accepted (i : Instr) (s : State) : State :=
  match writeOperands i with
  | some (dev, reg, data) => acceptWrite dev reg data s
  | none =>
    match i with
    | .encode reg data => showFrame (encodeFrame reg data) s
    | .load dev reg data => acceptLoad dev reg data s
    | .send => setTx .latchLow s
    | _ => respond .ok s

theorem exec_idle (i : Instr) {s : State} (h : s.tx = .idle) : exec i s = .next (accepted i s) := by
  cases hw : writeOperands i with
  | some a =>
    obtain ⟨dev, reg, data⟩ := a
    simp only [exec_of_writeOperands hw, registerWrite, whenReady_idle h, accepted, hw]
  | none =>
    cases i <;> simp only [writeOperands, reduceCtorEq] at hw <;>
      simp only [exec, execEncode, execNop, execSend, execLoad, whenReady_idle h, accepted, writeOperands]

/-- Everything accepting an operation can do: answer without touching slots and `TX`, install and answer, begin a burst, or
install and begin a burst. -/
theorem accepted_cases (i : Instr) (s : State) :
    (∃ rs fo, accepted i s = { s with responses := s.responses ++ rs, frameOut := fo }
      ∧ rs = responsesOf s.chainLength i) ∨
    (∃ dev reg data, installOperands i = some (dev, reg, data) ∧ validDev s.chainLength dev = true
      ∧ responsesOf s.chainLength i = [.ok] ∧ accepted i s = respond .ok (install dev reg data s)) ∨
    (i = .send ∧ accepted i s = setTx .latchLow s) ∨
    (∃ dev reg data, installOperands i = some (dev, reg, data) ∧ writeOperands i = some (dev, reg, data)
      ∧ validDev s.chainLength dev = true ∧ accepted i s = setTx .latchLow (install dev reg data s)) := by
  cases hw : writeOperands i with
  | some a =>
    obtain ⟨dev, reg, data⟩ := a
    have hi : installOperands i = some (dev, reg, data) := by
      cases i <;> simp only [writeOperands, reduceCtorEq] at hw <;> exact hw
    cases hv : validDev s.chainLength dev with
    | true =>
      refine .inr (.inr (.inr ⟨dev, reg, data, hi, rfl, hv, ?_⟩))
      simp [accepted, hw, acceptWrite, hv]
    | false =>
      refine .inl ⟨[.addressingError], s.frameOut, ?_, ?_⟩
      · simp [accepted, hw, acceptWrite, hv, raiseError, respond]
      · simp [responsesOf, hi, hv]
  | none =>
    cases i <;> simp only [writeOperands, reduceCtorEq] at hw
    case encode reg data => exact .inl ⟨[], some (encodeFrame reg data), by simp [accepted, writeOperands, showFrame], rfl⟩
    case nop => exact .inl ⟨[.ok], s.frameOut, rfl, rfl⟩
    case send => exact .inr (.inr (.inl ⟨rfl, rfl⟩))
    case load dev reg data =>
      cases hv : validDev s.chainLength dev with
      | true =>
        refine .inr (.inl ⟨dev, reg, data, rfl, hv, by simp [responsesOf, installOperands, hv], ?_⟩)
        simp [accepted, writeOperands, acceptLoad, hv]
      | false =>
        refine .inl ⟨[.addressingError], s.frameOut, ?_, by simp [responsesOf, installOperands, hv]⟩
        simp [accepted, writeOperands, acceptLoad, hv, raiseError, respond]

end Sys2Proof.Machine
end

