-- ==== Sys2Proof/Laws/Step.lean ====
section
/-! SUPPORT. What a step is, and everything it can do. -/

namespace Sys2Proof.Machine

theorem slots_ne_nil {s : State} (h : 1 ≤ s.chainLength) : s.slots ≠ [] := by
  intro hn; simp [State.chainLength, hn] at h

theorem step_noBlock {s : State} (h : s.slots = []) : step s = .refused .configurationError := by
  simp [step, nextAction, h]

theorem step_reset {s : State} (h : 1 ≤ s.chainLength) (hr : s.rstNow = true) : step s = .next (applyReset s.sampled) := by
  simp [step, nextAction, slots_ne_nil h, hr]

theorem step_sequence {s : State} (h : 1 ≤ s.chainLength) (hr : s.rstNow = false) (ht : s.tx ≠ .idle) :
    step s = sequencerStep s.sampled := by
  simp [step, nextAction, slots_ne_nil h, hr, ht]

theorem step_wait {s : State} (h : 1 ≤ s.chainLength) (hr : s.rstNow = false) (ht : s.tx = .idle) (hp : s.port = []) :
    step s = .next s.sampled := by
  simp [step, nextAction, slots_ne_nil h, hr, ht, hp]

theorem step_accept {s : State} {w : EncodedWord} {ws : List EncodedWord} {i : Instr} (h : 1 ≤ s.chainLength)
    (hr : s.rstNow = false) (ht : s.tx = .idle) (hp : s.port = w :: ws) (hd : decode w = .ok i) :
    step s = exec i (s.takingWord ws) := by
  simp [step, nextAction, slots_ne_nil h, hr, ht, hp, hd]

theorem step_reject {s : State} {w : EncodedWord} {ws : List EncodedWord} {e : DecodeError} (h : 1 ≤ s.chainLength)
    (hr : s.rstNow = false) (ht : s.tx = .idle) (hp : s.port = w :: ws) (hd : decode w = .error e) :
    step s = .refused .notAFrame := by
  simp [step, nextAction, slots_ne_nil h, hr, ht, hp, hd]

/-- Everything a step that answers a next state can be. -/
theorem step_cases {s t : State} (h : step s = .next t) :
    1 ≤ s.chainLength ∧
    ((s.rstNow = true ∧ t = applyReset s.sampled) ∨
     (s.rstNow = false ∧ s.tx ≠ .idle ∧ sequencerStep s.sampled = .next t) ∨
     (s.rstNow = false ∧ s.tx = .idle ∧ s.port = [] ∧ t = s.sampled) ∨
     (s.rstNow = false ∧ s.tx = .idle ∧ ∃ w ws i, s.port = w :: ws ∧ decode w = .ok i
       ∧ t = accepted i (s.takingWord ws))) := by
  by_cases h0 : s.slots = []
  · rw [step_noBlock h0] at h; cases h
  have h1 : 1 ≤ s.chainLength := List.length_pos_iff.mpr h0
  refine ⟨h1, ?_⟩
  cases hr : s.rstNow with
  | true => rw [step_reset h1 hr] at h; cases h; exact .inl ⟨rfl, rfl⟩
  | false =>
    by_cases ht : s.tx = .idle
    · cases hp : s.port with
      | nil => rw [step_wait h1 hr ht hp] at h; cases h; exact .inr (.inr (.inl ⟨rfl, ht, rfl, rfl⟩))
      | cons w ws =>
        cases hd : decode w with
        | error e => rw [step_reject h1 hr ht hp hd] at h; cases h
        | ok i =>
          rw [step_accept h1 hr ht hp hd, exec_idle (s := s.takingWord ws) i ht] at h
          cases h
          exact .inr (.inr (.inr ⟨rfl, ht, w, ws, i, rfl, hd, rfl⟩))
    · rw [step_sequence h1 hr ht] at h
      exact .inr (.inl ⟨rfl, ht, h⟩)

/-- Everything a step of the sequencer can be while a burst is in progress: one event, and the next state of `TX`. -/
theorem sequencerStep_cases {s t : State} (ht : s.tx ≠ .idle) (h : sequencerStep s = .next t) :
    (s.tx = .latchLow ∧ t = latchLowStep s) ∨
    (∃ k b, s.tx = .shift k .present ∧ cellRead s.slots k = some b ∧ t = setTx (.shift k .clkHigh) (emit .data b s)) ∨
    (∃ k, s.tx = .shift k .clkHigh ∧ t = clkHighStep k s) ∨
    (∃ k, s.tx = .shift k .clkLow ∧ t = clkLowStep k s) ∨
    (s.tx = .latchHigh ∧ t = latchHighStep s) := by
  unfold sequencerStep at h
  split at h
  case h_1 hx => exact absurd hx ht
  case h_2 hx => cases h; exact .inl ⟨hx, rfl⟩
  case h_3 k hx =>
    unfold presentStep at h
    split at h
    · cases h; exact .inr (.inl ⟨k, _, hx, ‹_›, rfl⟩)
    · cases h
  case h_4 k hx => cases h; exact .inr (.inr (.inl ⟨k, hx, rfl⟩))
  case h_5 k hx => cases h; exact .inr (.inr (.inr (.inl ⟨k, hx, rfl⟩)))
  case h_6 hx => cases h; exact .inr (.inr (.inr (.inr ⟨hx, rfl⟩)))

/-- Accepting an instruction appends to the records and does not read them (R16, R18). -/
theorem accepted_afterRecordsOf (i : Instr) (r s : State) :
    accepted i (State.afterRecordsOf r s) = State.afterRecordsOf r (accepted i s) := by
  unfold accepted
  split
  · unfold acceptWrite
    rw [afterRecordsOf_chainLength]
    split
    · rfl
    · simp [raiseError, respond, State.afterRecordsOf]
  · split
    · rfl
    · unfold acceptLoad
      rw [afterRecordsOf_chainLength]
      split <;> simp [raiseError, respond, install, showFrame, State.afterRecordsOf]
    · rfl
    · simp [respond, State.afterRecordsOf]

/-- A step of the sequencer appends to the records and does not read them (R16, R18). -/
theorem sequencerStep_afterRecordsOf (r s : State) :
    sequencerStep (State.afterRecordsOf r s) = seen (State.afterRecordsOf r) (sequencerStep s) := by
  unfold sequencerStep
  rw [afterRecordsOf_tx]
  split
  · rfl
  · simp [seen, latchLowStep, setTx, emit, State.afterRecordsOf]
  · unfold presentStep
    rw [afterRecordsOf_slots]
    split
    · simp [seen, setTx, emit, State.afterRecordsOf]
    · rfl
  · simp [seen, clkHighStep, setTx, emit, State.afterRecordsOf]
  · simp [seen, clkLowStep, setTx, emit, State.afterRecordsOf, State.chainLength]
  · simp [seen, latchHighStep, setTx, respond, emit, State.afterRecordsOf]

theorem steps_add (j k : Nat) (s : State) :
    steps (j + k) s = match steps j s with
      | .next t => steps k t
      | .fault r => .fault r
      | .refused r => .refused r := by
  induction j generalizing s with
  | zero => simp [steps]
  | succ j ih =>
    rw [Nat.succ_add, steps, steps]
    cases step s with
    | next t => exact ih t
    | fault r => rfl
    | refused r => rfl

end Sys2Proof.Machine
end

