-- ==== Sys2Proof/Laws/Burst.lean ====
section
/-! SUPPORT. A burst by positions: the sequencer's state before its `k`-th event, and what the `k`-th step does. -/

namespace Sys2Proof.Machine

/-- `TX` when `k` events of a burst of a chain of `n` devices have been emitted (R95 to R100). -/
def txAt (n k : Nat) : Tx :=
  if k = 0 then .latchLow
  else if 48 * n + 2 ≤ k then .idle
  else if k = 48 * n + 1 then .latchHigh
  else if k % 3 = 1 then .shift (k / 3) .present
  else if k % 3 = 2 then .shift (k / 3) .clkHigh
  else .shift (k / 3 - 1) .clkLow

theorem txAt_zero (n : Nat) : txAt n 0 = .latchLow := rfl

theorem txAt_ne_idle {n k : Nat} (h : k < 48 * n + 2) : txAt n k ≠ .idle := by
  unfold txAt
  split
  · simp
  · rw [if_neg (by omega)]; split
    · simp
    · split
      · simp
      · split <;> simp

theorem txAt_done {n k : Nat} (h : 48 * n + 2 ≤ k) : txAt n k = .idle := by
  unfold txAt; rw [if_neg (by omega), if_pos h]

theorem txAt_last (n : Nat) : txAt n (48 * n + 1) = .latchHigh := by
  unfold txAt; rw [if_neg (by omega), if_neg (by omega), if_pos rfl]

theorem txAt_present {n t : Nat} (h : t < 16 * n) : txAt n (3 * t + 1) = .shift t .present := by
  unfold txAt
  rw [if_neg (by omega), if_neg (by omega), if_neg (by omega), if_pos (by omega), show (3 * t + 1) / 3 = t by omega]

theorem txAt_clkHigh {n t : Nat} (h : t < 16 * n) : txAt n (3 * t + 2) = .shift t .clkHigh := by
  unfold txAt
  rw [if_neg (by omega), if_neg (by omega), if_neg (by omega), if_neg (by omega), if_pos (by omega),
    show (3 * t + 2) / 3 = t by omega]

theorem txAt_clkLow {n t : Nat} (h : t < 16 * n) : txAt n (3 * t + 3) = .shift t .clkLow := by
  unfold txAt
  rw [if_neg (by omega), if_neg (by omega), if_neg (by omega), if_neg (by omega), if_neg (by omega),
    show (3 * t + 3) / 3 - 1 = t by omega]

/-- The positions of a burst: its first, the three of each bit, its last. -/
theorem position_cases {n k : Nat} (h : k < 48 * n + 2) :
    k = 0 ∨ (∃ t < 16 * n, k = 3 * t + 1 ∨ k = 3 * t + 2 ∨ k = 3 * t + 3) ∨ k = 48 * n + 1 := by
  by_cases h0 : k = 0
  · exact .inl h0
  by_cases h1 : k = 48 * n + 1
  · exact .inr (.inr h1)
  exact .inr (.inl ⟨(k - 1) / 3, by omega, by omega⟩)

/-- The state after one more event `e`, at position `k` of the burst. -/
def afterEvent (n k : Nat) (e : PinEvent) (s : State) : State :=
  { s with
    tx := txAt n (k + 1), pins := s.pins.assign e, trace := s.trace ++ [e], rst := s.rst.tail, frameOut := none,
    responses := if k = 48 * n + 1 then s.responses ++ [.ok] else s.responses }

/-- Every step of a burst emits the event at its position and goes on to the next position. -/
theorem step_position {s : State} {k : Nat} (hn : 1 ≤ s.chainLength) (hr : s.rstNow = false)
    (hk : k < 48 * s.chainLength + 2) (ht : s.tx = txAt s.chainLength k) :
    ∃ e, (burstEvents s.slots)[k]? = some e ∧ step s = .next (afterEvent s.chainLength k e s) := by
  have hidle : s.tx ≠ .idle := ht ▸ txAt_ne_idle hk
  rw [step_sequence hn hr hidle]
  have hlen : s.slots.length = s.chainLength := rfl
  rcases position_cases hk with rfl | ⟨t, htn, rfl | rfl | rfl⟩ | rfl
  · refine ⟨_, burstEvents_first _, ?_⟩
    have h1 : txAt s.chainLength 1 = .shift 0 .present := txAt_present (t := 0) (by omega)
    simp [sequencerStep, ht, txAt_zero, afterEvent, h1, latchLowStep, emit, setTx, State.sampled, Pins.assign]
  · obtain ⟨b, hb⟩ := cellRead_eq_some (m := s.slots) (c := t) (by omega)
    refine ⟨_, (burstEvents_bit hb).1, ?_⟩
    have h1 : txAt s.chainLength (3 * t + 1 + 1) = .shift t .clkHigh := txAt_clkHigh htn
    have h2 : ¬ 3 * t = 48 * s.chainLength := by omega
    simp [sequencerStep, ht, txAt_present htn, presentStep, hb, afterEvent, h1, h2, emit, setTx, State.sampled, Pins.assign]
  · obtain ⟨b, hb⟩ := cellRead_eq_some (m := s.slots) (c := t) (by omega)
    refine ⟨_, (burstEvents_bit hb).2.1, ?_⟩
    have h1 : txAt s.chainLength (3 * t + 2 + 1) = .shift t .clkLow := txAt_clkLow htn
    have h2 : ¬ 3 * t + 2 = 48 * s.chainLength + 1 := by omega
    simp only [sequencerStep, sampled_tx, ht, txAt_clkHigh htn, afterEvent, h1, if_neg h2, clkHighStep]; rfl
  · obtain ⟨b, hb⟩ := cellRead_eq_some (m := s.slots) (c := t) (by omega)
    refine ⟨_, (burstEvents_bit hb).2.2, ?_⟩
    have h2 : ¬ 3 * t + 3 = 48 * s.chainLength + 1 := by omega
    have h1 : afterBit s.chainLength t = txAt s.chainLength (3 * t + 3 + 1) := by
      unfold afterBit
      by_cases hl : t + 1 < 16 * s.chainLength
      · rw [if_pos hl, show 3 * t + 3 + 1 = 3 * (t + 1) + 1 by omega, txAt_present hl]
      · rw [if_neg hl, show 3 * t + 3 + 1 = 48 * s.chainLength + 1 by omega, txAt_last]
    simp only [sequencerStep, sampled_tx, ht, txAt_clkLow htn, afterEvent, if_neg h2, clkLowStep, sampled_chainLength, h1]; rfl
  · refine ⟨_, burstEvents_last _, ?_⟩
    have h1 : txAt s.chainLength (48 * s.chainLength + 1 + 1) = .idle := txAt_done (by omega)
    simp only [sequencerStep, sampled_tx, ht, txAt_last, afterEvent, h1, if_true, latchHighStep]; rfl

theorem NoResetFor.now {k : Nat} {s : State} (h : NoResetFor (k + 1) s) : s.rstNow = false := by
  unfold State.rstNow
  cases hr : s.rst with
  | nil => rfl
  | cons b bs => exact h b (by simp [hr])

theorem NoResetFor.tail {k : Nat} {s t : State} (h : NoResetFor (k + 1) s) (ht : t.rst = s.rst.tail) : NoResetFor k t := by
  intro b hb
  rw [ht] at hb
  cases hr : s.rst with
  | nil => simp [hr] at hb
  | cons a bs => rw [hr] at hb; exact h b (by simpa [hr] using .inr hb)

theorem NoResetFor.mono {j k : Nat} {s : State} (h : NoResetFor k s) (hj : j ≤ k) : NoResetFor j s :=
  fun b hb => h b (List.take_subset_take_left _ hj hb)

theorem steps_succ_of {k : Nat} {s t : State} (h : step s = .next t) : steps (k + 1) s = steps k t := by
  rw [steps, h]

theorem steps_snoc {k : Nat} {s t : State} (h : steps k s = .next t) : steps (k + 1) s = step t := by
  rw [steps_add, h]
  show steps 1 t = step t
  rw [steps]
  cases step t <;> rfl

theorem steps_trans {j k : Nat} {s t : State} (h : steps j s = .next t) : steps (j + k) s = steps k t := by
  rw [steps_add, h]

/-- The state of a burst, begun in `s`, when `k` of its events have been emitted. -/
def inBurst (s : State) (k : Nat) : State :=
  { s with
    tx := txAt s.chainLength k, pins := s.pins.assignAll ((burstEvents s.slots).take k),
    trace := s.trace ++ (burstEvents s.slots).take k, rst := s.rst.drop k,
    frameOut := if k = 0 then s.frameOut else none,
    responses := if 48 * s.chainLength + 2 ≤ k then s.responses ++ [.ok] else s.responses }

theorem inBurst_zero {s : State} (h : s.tx = .latchLow) : inBurst s 0 = s := by
  simp [inBurst, txAt_zero, Pins.assignAll, ← h]

/-- What a whole burst leaves: `TX` in `Idle`, the burst's events in the trace, and one OK. -/
theorem inBurst_done {s : State} {k : Nat} (h : k = 48 * s.chainLength + 2) :
    inBurst s k = { s with
      tx := .idle, pins := s.pins.assignAll (burstEvents s.slots), trace := s.trace ++ burstEvents s.slots,
      rst := s.rst.drop k, frameOut := none, responses := s.responses ++ [.ok] } := by
  have ht : (burstEvents s.slots).take k = burstEvents s.slots := by rw [h]; exact burstEvents_take_all _
  have h0 : ¬ k = 0 := by omega
  have h1 : 48 * s.chainLength + 2 ≤ k := by omega
  simp only [inBurst, txAt_done h1, ht, if_neg h0, if_pos h1]

theorem inBurst_succ {s : State} {k : Nat} {e : PinEvent} (hk : k < 48 * s.chainLength + 2)
    (he : (burstEvents s.slots)[k]? = some e) :
    afterEvent s.chainLength k e (inBurst s k) = inBurst s (k + 1) := by
  have hr : (if k = 48 * s.chainLength + 1 then
        (if 48 * s.chainLength + 2 ≤ k then s.responses ++ [Response.ok] else s.responses) ++ [Response.ok]
      else if 48 * s.chainLength + 2 ≤ k then s.responses ++ [Response.ok] else s.responses)
      = if 48 * s.chainLength + 2 ≤ k + 1 then s.responses ++ [Response.ok] else s.responses := by
    split
    · rw [if_neg (by omega), if_pos (by omega)]
    · rw [if_neg (by omega), if_neg (by omega)]
  simp only [afterEvent, inBurst, hr, burstEvents_take_succ he, Pins.assignAll, List.foldl_append, List.foldl_cons,
    List.foldl_nil, List.append_assoc, List.tail_drop, Nat.succ_ne_zero, if_false]

/-- A burst runs position by position. -/
theorem steps_inBurst {s : State} (hn : 1 ≤ s.chainLength) (ht : s.tx = .latchLow) {k : Nat}
    (hk : k ≤ 48 * s.chainLength + 2) (hr : NoResetFor k s) : steps k s = .next (inBurst s k) := by
  induction k with
  | zero => rw [inBurst_zero ht]; rfl
  | succ k ih =>
    rw [steps_snoc (ih (by omega) (hr.mono (Nat.le_succ k)))]
    have hnow : (inBurst s k).rstNow = false := by
      show (s.rst.drop k).headD false = false
      rw [List.headD_eq_head?_getD, List.head?_drop]
      cases hd : s.rst[k]? with
      | none => rfl
      | some b => exact hr b (List.mem_of_getElem? (i := k) (by rw [List.getElem?_take_of_lt (Nat.lt_succ_self k)]; exact hd))
    obtain ⟨e, he, hs⟩ := step_position (s := inBurst s k) (k := k) hn hnow (by show k < 48 * s.chainLength + 2; omega) rfl
    rw [hs]
    exact congrArg _ (inBurst_succ (by omega) he)

end Sys2Proof.Machine
end

