-- ==== Sys2Proof/Laws/PerInstr.lean ====
section
/-! SUPPORT. Statements made per instruction: decoding the word of a well-formed instruction gives it back. -/

namespace Sys2Proof.Laws.RoundTrip

/-- The word the encoder writes for a well-formed instruction decodes to it. -/
def Statement (i : Instr) : Prop := i.wellFormed = true → decode (Sys2Proof.encode i) = .ok i

/-- The fields of a command word are the fields it was written from. -/
theorem fields_commandWord (dev op : Nat) (reg : RegAddr) (data : DataByte) (hop : op < 4) (cw : Nat)
    (h : commandWord dev op reg data = .command cw) :
    cwOp cw = op ∧ cwDev cw = dev ∧ cwReg cw = reg ∧ cwData cw = data := by
  simp only [commandWord, EncodedWord.command.injEq] at h
  subst h
  have hr := reg.isLt
  have hd := data.isLt
  refine ⟨?_, ?_, BitVec.eq_of_toNat_eq ?_, BitVec.eq_of_toNat_eq ?_⟩
  · unfold cwOp; omega
  · unfold cwDev; omega
  · simp only [cwReg, BitVec.toNat_ofNat]; omega
  · simp only [cwData, BitVec.toNat_ofNat]; omega

/-- A word with `op = 11` decodes to the name its register address has. -/
theorem decode_writeWord (dev : Nat) (reg : RegAddr) (data : DataByte) :
    decode (commandWord dev 3 reg data) = .ok (nameWrite dev reg data) := by
  obtain ⟨h1, h2, h3, h4⟩ := fields_commandWord dev 3 reg data (by decide) _ rfl
  simp only [commandWord, decode, decodeCommand, h1, h2, h3, h4]

theorem encode (reg : RegAddr) (data : DataByte) : Statement (.encode reg data) := fun _ => by
  simp only [Sys2Proof.encode, decode, decodeFrame16, Machine.decodeFrame_encodeFrame]

theorem nop : Statement .nop := fun _ => by
  obtain ⟨h, -⟩ := fields_commandWord 0 0 0x0#4 0x00#8 (by decide) _ rfl
  simp only [Sys2Proof.encode, commandWord, decode, decodeCommand, h]

theorem send : Statement .send := fun _ => by
  obtain ⟨h, -⟩ := fields_commandWord 0 1 0x0#4 0x00#8 (by decide) _ rfl
  simp only [Sys2Proof.encode, commandWord, decode, decodeCommand, h]

theorem load (dev : Nat) (reg : RegAddr) (data : DataByte) : Statement (.load dev reg data) := fun _ => by
  obtain ⟨h1, h2, h3, h4⟩ := fields_commandWord dev 2 reg data (by decide) _ rfl
  simp only [Sys2Proof.encode, commandWord, decode, decodeCommand, h1, h2, h3, h4]

theorem write (dev : Nat) (reg : RegAddr) (data : DataByte) : Statement (.write dev reg data) := fun h => by
  have hr : reg = 0xD#4 ∨ reg = 0xE#4 := by simpa [Instr.wellFormed, unnamedReg] using h
  rw [Sys2Proof.encode, decode_writeWord]
  rcases hr with rfl | rfl <;> rfl

theorem wrNoop (dev : Nat) (data : DataByte) : Statement (.wrNoop dev data) := fun _ => decode_writeWord dev _ data

theorem wrDig0 (dev : Nat) (data : DataByte) : Statement (.wrDig0 dev data) := fun _ => decode_writeWord dev _ data

theorem wrDig1 (dev : Nat) (data : DataByte) : Statement (.wrDig1 dev data) := fun _ => decode_writeWord dev _ data

theorem wrDig2 (dev : Nat) (data : DataByte) : Statement (.wrDig2 dev data) := fun _ => decode_writeWord dev _ data

theorem wrDig3 (dev : Nat) (data : DataByte) : Statement (.wrDig3 dev data) := fun _ => decode_writeWord dev _ data

theorem wrDig4 (dev : Nat) (data : DataByte) : Statement (.wrDig4 dev data) := fun _ => decode_writeWord dev _ data

theorem wrDig5 (dev : Nat) (data : DataByte) : Statement (.wrDig5 dev data) := fun _ => decode_writeWord dev _ data

theorem wrDig6 (dev : Nat) (data : DataByte) : Statement (.wrDig6 dev data) := fun _ => decode_writeWord dev _ data

theorem wrDig7 (dev : Nat) (data : DataByte) : Statement (.wrDig7 dev data) := fun _ => decode_writeWord dev _ data

theorem wrDecode (dev : Nat) (data : DataByte) : Statement (.wrDecode dev data) := fun _ => decode_writeWord dev _ data

theorem wrIntensity (dev : Nat) (data : DataByte) : Statement (.wrIntensity dev data) := fun _ => decode_writeWord dev _ data

theorem wrScanlimit (dev : Nat) (data : DataByte) : Statement (.wrScanlimit dev data) := fun _ => decode_writeWord dev _ data

theorem wrShutdown (dev : Nat) (data : DataByte) : Statement (.wrShutdown dev data) := fun _ => decode_writeWord dev _ data

theorem wrDisptest (dev : Nat) (data : DataByte) : Statement (.wrDisptest dev data) := fun _ => decode_writeWord dev _ data

end Sys2Proof.Laws.RoundTrip
end

