-- ==== Sys2Proof/Laws/Transaction.lean ====
section
/-! SUPPORT. What accepting an operation, and an operation as one transaction, leave in the fields they do not write. -/

namespace Sys2Proof.Machine

/-! ### Acceptance -/

theorem accepted_pins (i : Instr) (s : State) : (accepted i s).pins = s.pins := by
  rcases accepted_cases i s with ⟨_, _, h, _⟩ | ⟨_, _, _, _, _, _, h⟩ | ⟨_, h⟩ | ⟨_, _, _, _, _, _, h⟩ <;> rw [h] <;> simp

theorem accepted_trace (i : Instr) (s : State) : (accepted i s).trace = s.trace := by
  rcases accepted_cases i s with ⟨_, _, h, _⟩ | ⟨_, _, _, _, _, _, h⟩ | ⟨_, h⟩ | ⟨_, _, _, _, _, _, h⟩ <;> rw [h] <;> simp

theorem accepted_port (i : Instr) (s : State) : (accepted i s).port = s.port := by
  rcases accepted_cases i s with ⟨_, _, h, _⟩ | ⟨_, _, _, _, _, _, h⟩ | ⟨_, h⟩ | ⟨_, _, _, _, _, _, h⟩ <;> rw [h] <;> simp

theorem accepted_chainLength (i : Instr) (s : State) : (accepted i s).chainLength = s.chainLength := by
  rcases accepted_cases i s with ⟨_, _, h, _⟩ | ⟨_, _, _, _, _, _, h⟩ | ⟨_, h⟩ | ⟨_, _, _, _, _, _, h⟩ <;> rw [h] <;>
    simp [State.chainLength, install, showFrame, respond, setTx]

/-- A step of the sequencer leaves the buffer, the inputs and the past alone (R99). -/
theorem sequencerStep_frame {s t : State} (ht : s.tx ≠ .idle) (h : sequencerStep s = .next t) :
    t.slots = s.slots ∧ t.port = s.port ∧ t.rst = s.rst ∧ t.past = s.past := by
  rcases sequencerStep_cases ht h with ⟨_, rfl⟩ | ⟨_, _, _, _, rfl⟩ | ⟨_, _, rfl⟩ | ⟨_, _, rfl⟩ | ⟨_, rfl⟩ <;>
    exact ⟨rfl, rfl, rfl, rfl⟩

/-- A state of the block with a burst in progress stands at a position of it. -/
theorem Inv.txAt {s : State} (h : Inv s) (ht : s.tx ≠ .idle) :
    ∃ k < 48 * s.chainLength + 2, s.tx = Machine.txAt s.chainLength k := by
  have hq := h.sequencer
  have hn : 1 ≤ s.chainLength := (Memory.wf_iff.mp h.buffer).1
  unfold SequencerOk at hq
  split at hq
  case h_1 hx => exact absurd hx ht
  case h_2 hx => exact ⟨0, by omega, hx⟩
  case h_3 t hx => exact ⟨3 * t + 1, by omega, by rw [txAt_present hq.1, hx]⟩
  case h_4 t hx => exact ⟨3 * t + 2, by omega, by rw [txAt_clkHigh hq.1, hx]⟩
  case h_5 t hx => exact ⟨3 * t + 3, by omega, by rw [txAt_clkLow hq.1, hx]⟩
  case h_6 hx => exact ⟨48 * s.chainLength + 1, by omega, by rw [txAt_last, hx]⟩

/-! ### Transactions -/

theorem foldl_sendBit (bs : List Level) (s : State) :
    bs.foldl sendBit s =
      { s with pins := s.pins.assignAll (bs.flatMap bitEvents), trace := s.trace ++ bs.flatMap bitEvents } := by
  induction bs generalizing s with
  | nil => simp [Pins.assignAll]
  | cons b bs ih => rw [List.foldl_cons, ih]; simp [sendBit, emit, Pins.assignAll, bitEvents]

/-- The loop of R90 emits the burst's event list, and changes nothing but the pins, the trace and the responses. -/
theorem transmit_eq (s : State) :
    transmit s = { s with
      pins := s.pins.assignAll (burstEvents s.slots), trace := s.trace ++ burstEvents s.slots,
      responses := s.responses ++ [.ok], frameOut := none } := by
  simp only [transmit, foldl_sendBit, burstEvents]
  simp [emit, respond, Pins.assignAll]

/-- A transaction never changes the chain length. -/
theorem transact_chainLength (i : Instr) (s : State) : (transact i s).chainLength = s.chainLength := by
  unfold transact effect
  split
  · unfold transactWrite
    split
    · rw [transmit_eq]; simp [State.chainLength]
    · rfl
  · split
    · rfl
    · unfold acceptLoad; split <;> simp
    · rw [transmit_eq]; rfl
    · rfl

end Sys2Proof.Machine
end

