-- ==== Sys2Proof/Tests/Slice0.lean ====
section
/-! SUPPORT. The model's own tests. Every expected value is copied from spec/95_test_vectors.md (V..., S..., P...) or written
out from the rule named beside it. Then a witness for the hypotheses of every statement that has some. -/

namespace Sys2Proof.Tests

open Sys2Proof Sys2Proof.Machine

/-! ### Helpers -/

/-- An idle block with these slots, right after reset otherwise. -/
def block (slots : List Frame) : State := { State.initial slots.length with slots := slots }

/-- That block with the sequencer at `tx` and the pins as given. -/
def sending (slots : List Frame) (tx : Tx) (clk data : Level) : State :=
  { block slots with tx := tx, pins := { cs := false, clk := clk, data := data } }

/-- A field of the next state, if there is one. -/
def after {α : Type} (f : State → α) : Host.Outcome State Fault Refusal → Option α
  | .next s => some (f s)
  | _ => none

/-- The refusal, if there is one. -/
def refusal : Host.Outcome State Fault Refusal → Option Refusal
  | .refused r => some r
  | _ => none

/-- Slots, sequencer and responses. -/
def view (s : State) : List Frame × Tx × List Response := (s.slots, s.tx, s.responses)

/-- What a sequencer step shows. -/
def wires (s : State) : Tx × Pins × List PinEvent := (s.tx, s.pins, s.trace)

/-! ### Well-formedness: the one check, and a term it refuses (R62) -/

theorem test_wellFormed_refuses_named_reg : (Instr.write 1 0x1#4 0xFF#8).wellFormed = false := by decide
theorem test_wellFormed_refuses_reg_f : (Instr.write 1 0xF#4 0x01#8).wellFormed = false := by decide
theorem test_wellFormed_accepts_reg_d : (Instr.write 1 0xD#4 0x5A#8).wellFormed = true := by decide
theorem test_wellFormed_accepts_reg_e : (Instr.write 1 0xE#4 0x5A#8).wellFormed = true := by decide

/-! ### Decoding: words written out from the spec's encodings -/

/-- FRAME16, V3: `0000 0001 1111 1111`. -/
theorem test_decode_encode : decode (.frame16 0b0000000111111111#16) = .ok (.encode 0x1#4 0xFF#8) := rfl
/-- V1: the all-zero frame. -/
theorem test_decode_encode_zero : decode (.frame16 0x0000#16) = .ok (.encode 0x0#4 0x00#8) := rfl
/-- `DECODE(0x1000)` is invalid (95_test_vectors.md 2.1). -/
theorem test_decode_no_frame : decode (.frame16 0x1000#16) = .error .topNibbleNotZero := rfl
theorem test_decode_nop : decode (.command 0x0000) = .ok .nop := rfl
/-- NOP ignores every other field (R55, R56): `dev = 0xFF`, `reg = 0xF`, `data = 0xFF`. -/
theorem test_decode_nop_ignores_fields : decode (.command 0b1111111100111111111111) = .ok .nop := rfl
/-- V48. -/
theorem test_decode_send : decode (.command 0x1000) = .ok .send := rfl
theorem test_decode_send_ignores_fields : decode (.command 0b1111111101111111111111) = .ok .send := rfl
/-- P4, first line: `dev = 00000011`, `op = 10`, `reg = 1010`, `data = 00001000`. -/
theorem test_decode_load : decode (.command 0b0000001110101000001000) = .ok (.load 3 0xA#4 0x08#8) := rfl
/-- V44. -/
theorem test_decode_write : decode (.command (0x01 * 0x4000 + 0x3D5A)) = .ok (.write 1 0xD#4 0x5A#8) := rfl
/-- V47's address, beyond the chain: decoding does not look at the range. -/
theorem test_decode_write_far : decode (.command (0xC8 * 0x4000 + 0x3E00)) = .ok (.write 200 0xE#4 0x00#8) := rfl
/-- V30. -/
theorem test_decode_wrNoop : decode (.command (0x02 * 0x4000 + 0x30A5)) = .ok (.wrNoop 2 0xA5#8) := rfl
/-- V31. -/
theorem test_decode_wrDig0 : decode (.command (0x01 * 0x4000 + 0x31FF)) = .ok (.wrDig0 1 0xFF#8) := rfl
/-- V32. -/
theorem test_decode_wrDig1 : decode (.command (0x01 * 0x4000 + 0x327E)) = .ok (.wrDig1 1 0x7E#8) := rfl
/-- V33. -/
theorem test_decode_wrDig2 : decode (.command (0x02 * 0x4000 + 0x3330)) = .ok (.wrDig2 2 0x30#8) := rfl
/-- V34. -/
theorem test_decode_wrDig3 : decode (.command (0x01 * 0x4000 + 0x346D)) = .ok (.wrDig3 1 0x6D#8) := rfl
/-- V35. -/
theorem test_decode_wrDig4 : decode (.command (0x02 * 0x4000 + 0x3579)) = .ok (.wrDig4 2 0x79#8) := rfl
/-- V36. -/
theorem test_decode_wrDig5 : decode (.command (0x01 * 0x4000 + 0x3633)) = .ok (.wrDig5 1 0x33#8) := rfl
/-- V37. -/
theorem test_decode_wrDig6 : decode (.command (0x02 * 0x4000 + 0x375B)) = .ok (.wrDig6 2 0x5B#8) := rfl
/-- V38. -/
theorem test_decode_wrDig7 : decode (.command (0x01 * 0x4000 + 0x3880)) = .ok (.wrDig7 1 0x80#8) := rfl
/-- V39. -/
theorem test_decode_wrDecode : decode (.command (0x02 * 0x4000 + 0x3900)) = .ok (.wrDecode 2 0x00#8) := rfl
/-- V40. -/
theorem test_decode_wrIntensity : decode (.command (0x02 * 0x4000 + 0x3A0F)) = .ok (.wrIntensity 2 0x0F#8) := rfl
/-- V41. -/
theorem test_decode_wrScanlimit : decode (.command (0x01 * 0x4000 + 0x3B07)) = .ok (.wrScanlimit 1 0x07#8) := rfl
/-- V42. -/
theorem test_decode_wrShutdown : decode (.command (0x01 * 0x4000 + 0x3C01)) = .ok (.wrShutdown 1 0x01#8) := rfl
/-- V43. -/
theorem test_decode_wrDisptest : decode (.command (0x02 * 0x4000 + 0x3F01)) = .ok (.wrDisptest 2 0x01#8) := rfl
/-- The table's 14 bits hold no device address: `WR_INTENSITY 0, 0x0F` (V45). -/
theorem test_decodeTableWord : decodeTableWord 16 0x3A0F = some (.wrIntensity 0 0x0F#8) := rfl

/-! ### ENCODE -/

/-- V9 and V11. -/
theorem test_encodeFrame : encodeFrame 0xD#4 0x5A#8 = 0x0D5A#16 ∧ encodeFrame 0x8#4 0x80#8 = 0b0000100010000000#16 := by decide
/-- V5; ENCODE needs no READY (R71). -/
theorem test_exec_encode : after State.frameOut (exec (.encode 0xC#4 0x01#8) (block [0x0000#16])) = some (some 0x0C01#16) := by
  decide

/-! ### One instruction at a time -/

/-- V25. -/
theorem test_exec_nop : after view (exec .nop (block [0x01FF#16, 0x0000#16])) =
    some ([0x01FF#16, 0x0000#16], .idle, [.ok]) := by decide
/-- R94, V22. -/
theorem test_exec_send : after view (exec .send (block [0x01FF#16, 0x0000#16])) =
    some ([0x01FF#16, 0x0000#16], .latchLow, []) := by decide
/-- V14: the upper boundary. -/
theorem test_exec_load_last : after view (exec (.load 3 0x1#4 0xFF#8) (State.initial 3)) =
    some ([0x0000#16, 0x0000#16, 0x01FF#16], .idle, [.ok]) := by decide
/-- V17: `dev = N + 1`. -/
theorem test_exec_load_beyond : after view (exec (.load 4 0xA#4 0x0F#8) (block [0x0111#16, 0x0222#16, 0x0333#16])) =
    some ([0x0111#16, 0x0222#16, 0x0333#16], .idle, [.addressingError]) := by decide
/-- V44. -/
theorem test_exec_write : after view (exec (.write 1 0xD#4 0x5A#8) (State.initial 2)) =
    some ([0x0D5A#16, 0x0000#16], .latchLow, []) := by decide
/-- V47. -/
theorem test_exec_write_beyond : after view (exec (.write 200 0x0#4 0x00#8) (block [0x01FF#16, 0x0000#16])) =
    some ([0x01FF#16, 0x0000#16], .idle, [.addressingError]) := by decide
/-- V30. -/
theorem test_exec_wrNoop : after view (exec (.wrNoop 2 0xA5#8) (State.initial 2)) =
    some ([0x0000#16, 0x00A5#16], .latchLow, []) := by decide
/-- V31. -/
theorem test_exec_wrDig0 : after view (exec (.wrDig0 1 0xFF#8) (State.initial 2)) =
    some ([0x01FF#16, 0x0000#16], .latchLow, []) := by decide
/-- V32. -/
theorem test_exec_wrDig1 : after view (exec (.wrDig1 1 0x7E#8) (State.initial 2)) =
    some ([0x027E#16, 0x0000#16], .latchLow, []) := by decide
/-- V33. -/
theorem test_exec_wrDig2 : after view (exec (.wrDig2 2 0x30#8) (State.initial 2)) =
    some ([0x0000#16, 0x0330#16], .latchLow, []) := by decide
/-- V34. -/
theorem test_exec_wrDig3 : after view (exec (.wrDig3 1 0x6D#8) (State.initial 2)) =
    some ([0x046D#16, 0x0000#16], .latchLow, []) := by decide
/-- V35. -/
theorem test_exec_wrDig4 : after view (exec (.wrDig4 2 0x79#8) (State.initial 2)) =
    some ([0x0000#16, 0x0579#16], .latchLow, []) := by decide
/-- V36. -/
theorem test_exec_wrDig5 : after view (exec (.wrDig5 1 0x33#8) (State.initial 2)) =
    some ([0x0633#16, 0x0000#16], .latchLow, []) := by decide
/-- V37. -/
theorem test_exec_wrDig6 : after view (exec (.wrDig6 2 0x5B#8) (State.initial 2)) =
    some ([0x0000#16, 0x075B#16], .latchLow, []) := by decide
/-- V38. -/
theorem test_exec_wrDig7 : after view (exec (.wrDig7 1 0x80#8) (State.initial 2)) =
    some ([0x0880#16, 0x0000#16], .latchLow, []) := by decide
/-- V39. -/
theorem test_exec_wrDecode : after view (exec (.wrDecode 2 0x00#8) (State.initial 2)) =
    some ([0x0000#16, 0x0900#16], .latchLow, []) := by decide
/-- V40. -/
theorem test_exec_wrIntensity : after view (exec (.wrIntensity 2 0x0F#8) (State.initial 2)) =
    some ([0x0000#16, 0x0A0F#16], .latchLow, []) := by decide
/-- V41. -/
theorem test_exec_wrScanlimit : after view (exec (.wrScanlimit 1 0x07#8) (State.initial 2)) =
    some ([0x0B07#16, 0x0000#16], .latchLow, []) := by decide
/-- V42. -/
theorem test_exec_wrShutdown : after view (exec (.wrShutdown 1 0x01#8) (State.initial 2)) =
    some ([0x0C01#16, 0x0000#16], .latchLow, []) := by decide
/-- V43. -/
theorem test_exec_wrDisptest : after view (exec (.wrDisptest 2 0x01#8) (State.initial 2)) =
    some ([0x0000#16, 0x0F01#16], .latchLow, []) := by decide
/-- V45: device address 0. -/
theorem test_exec_wrIntensity_zero : after view (exec (.wrIntensity 0 0x0F#8) (block [0x01FF#16, 0x0000#16])) =
    some ([0x01FF#16, 0x0000#16], .idle, [.addressingError]) := by decide

/-! ### One step at a time -/

/-- V13, through the port: the word of `LOAD 1, 0x1, 0xFF` is taken and run. -/
theorem test_step_accepts : after view (step ((State.initial 3).present (.command (0x01 * 0x4000 + 0x21FF)))) =
    some ([0x01FF#16, 0x0000#16, 0x0000#16], .idle, [.ok]) := by decide
theorem test_step_withFetchWord : after view (step (State.reset.withFetchWord 16 0x1000)) =
    some ([0x0000#16, 0x0000#16], .latchLow, []) := by decide
/-- R52, R72 (log entry 8). -/
theorem test_step_refuses_no_frame : refusal (step ((State.initial 1).present (.frame16 0x1000#16))) = some .notAFrame := by
  decide
/-- V20, the first event. -/
theorem test_step_latchLow : after wires (step { block [0x0C01#16] with tx := .latchLow }) =
    some (.shift 0 .present, { cs := false, clk := false, data := false }, [⟨.cs, false⟩]) := by decide
/-- V24: `bit(20) = SLOT[1][11] = 1`. -/
theorem test_step_present : after wires (step (sending [0x0222#16, 0x0C01#16, 0x0A08#16] (.shift 20 .present) false false)) =
    some (.shift 20 .clkHigh, { cs := false, clk := false, data := true }, [⟨.data, true⟩]) := by decide
/-- V24: `bit(47) = SLOT[2][0] = 0`, the last bit. -/
theorem test_step_present_last :
    after wires (step (sending [0x0222#16, 0x0C01#16, 0x0A08#16] (.shift 47 .present) false true)) =
    some (.shift 47 .clkHigh, { cs := false, clk := false, data := false }, [⟨.data, false⟩]) := by decide
theorem test_step_clkHigh : after wires (step (sending [0x0C01#16] (.shift 4 .clkHigh) false true)) =
    some (.shift 4 .clkLow, { cs := false, clk := true, data := true }, [⟨.clk, true⟩]) := by decide
theorem test_step_clkLow : after wires (step (sending [0x0C01#16] (.shift 14 .clkLow) true false)) =
    some (.shift 15 .present, { cs := false, clk := false, data := false }, [⟨.clk, false⟩]) := by decide
/-- V20: after `t = 15` of a chain of one device comes `CS 1`. -/
theorem test_step_clkLow_last : after wires (step (sending [0x0C01#16] (.shift 15 .clkLow) true true)) =
    some (.latchHigh, { cs := false, clk := false, data := true }, [⟨.clk, false⟩]) := by decide
theorem test_step_latchHigh : after view (step (sending [0x0C01#16] .latchHigh false true)) =
    some ([0x0C01#16], .idle, [.ok]) := by decide
/-- V52: reset at `TX = Shift(5, Present)`. -/
theorem test_step_reset_in_burst :
    after view (step { sending [0x01FF#16, 0x0000#16] (.shift 5 .present) false false with rst := [true] }) =
    some ([0x0000#16, 0x0000#16], .idle, []) := by decide
/-- V52, the pins. -/
theorem test_step_reset_pins :
    after State.pins (step { sending [0x01FF#16, 0x0000#16] (.shift 5 .present) false false with rst := [true] }) =
    some { cs := true, clk := false, data := false } := by decide
/-- V52, the trace: after `CS 0` and five bit groups the reset adds its one level change; the SEND gets no response. -/
theorem test_step_reset_record :
    after State.past (step { sending [0x01FF#16, 0x0000#16] (.shift 5 .present) false false with
      rst := [true], trace := (burstEvents [0x01FF#16, 0x0000#16]).take 16 }) =
    some [⟨(burstEvents [0x01FF#16, 0x0000#16]).take 16 ++ [⟨.cs, true⟩], []⟩] := by decide
/-- V53. -/
theorem test_construct_zero : refusal (State.construct 0) = some .configurationError := by decide
/-- V20: the burst's bits, `reg` in positions 4 to 7 and the last data bit. -/
theorem test_streamBits : streamBits [0x0C01#16] = [false, false, false, false, true, true, false, false,
    false, false, false, false, false, false, false, true] := by decide
/-- V20 and V22: 50 and 98 events. -/
theorem test_burstEvents_length : (burstEvents [0x0C01#16]).length = 50 ∧ (burstEvents [0x01FF#16, 0x0000#16]).length = 98 := by
  decide
/-- V24: device 1 holds `CH[47:32]`, device 3 `CH[15:0]`, once the stream is in the chain (R104). -/
theorem test_chain_held :
    let c : Chain := ⟨(streamBits [0x0222#16, 0x0C01#16, 0x0A08#16]).reverse, [0#16, 0#16, 0#16], true, 0⟩
    c.latch.latched = [0x0222#16, 0x0C01#16, 0x0A08#16] := by decide

/-! ### Witnesses: states and operands that meet the hypotheses of the statements -/

/-- A state in the middle of a burst of V22, at `t = 5`. -/
def midBurst : State :=
  { sending [0x01FF#16, 0x0000#16] (.shift 5 .present) false false with
    trace := (burstEvents [0x01FF#16, 0x0000#16]).take 16, port := [.command 0x0000] }

theorem reset_inv : Inv State.reset := ⟨reset_wf, rfl, rfl⟩
theorem midBurst_inv : Inv midBurst := ⟨by decide, by decide, rfl, rfl⟩
theorem idle_inv : Inv (block [0x01FF#16, 0x0000#16]) := ⟨by decide, rfl, rfl⟩

theorem witness_FrameDecodeInvertsEncode : (0x0FFF#16).toNat < 0x1000 ∧ 0x1000 ≤ (0x1000#16).toNat := by decide
theorem witness_DecodeOfEncodeIsTheInstruction :
    (Instr.write 1 0xE#4 0x5A#8).wellFormed = true ∧ (Instr.load 0 0xF#4 0xFF#8).wellFormed = true := by decide
theorem witness_DecodeNamesCommandsByOpAndReg : (0xE#4 : RegAddr) = 0xD#4 ∨ (0xE#4 : RegAddr) = 0xE#4 := by decide
theorem witness_EveryCommandWordDecodes : (0x0000#16).toNat < 0x1000 ∧ 0x1000 ≤ (0xFFFF#16).toNat := by decide
theorem witness_CommandWordCarriesItsFrame :
    installOperands (.load 3 0xA#4 0x08#8) = some (3, 0xA#4, 0x08#8) ∧
    installOperands (.wrDisptest 2 0x01#8) = some (2, 0xF#4, 0x01#8) := by decide
theorem witness_NopRespondsOkAndNothingElse : State.reset.tx = .idle := rfl
/-- The first and the last device. -/
theorem witness_LoadInstallsExactlyOneSlot :
    (State.initial 3).tx = .idle ∧ 1 ≤ 1 ∧ 1 ≤ (State.initial 3).chainLength ∧ 3 ≤ (State.initial 3).chainLength := by decide
/-- Device addresses 0 and `N + 1`. -/
theorem witness_InvalidDeviceIsRejectedWithoutEffect :
    installOperands (.load 0 0xA#4 0x0F#8) = some (0, 0xA#4, 0x0F#8) ∧ 0 < 1 ∧
    installOperands (.wrIntensity 3 0x0F#8) = some (3, 0xA#4, 0x0F#8) ∧ (State.initial 2).chainLength < 3 ∧
    (State.initial 2).tx = .idle := by decide
theorem witness_SendTransmitsTheWholeBuffer :
    1 ≤ State.reset.chainLength ∧ State.reset.tx = .idle ∧ NoResetFor (burstSteps State.reset.chainLength) State.reset := by
  decide
/-- `IsWriteOf`: the first and the last device for the install, 0 and `N + 1` for the error. -/
theorem witness_WriteInstallsAndTransmits :
    (State.initial 2).tx = .idle ∧ 1 ≤ (State.initial 2).chainLength ∧ 2 ≤ (State.initial 2).chainLength ∧ 0 < 1 ∧
    (State.initial 2).chainLength < 3 ∧ NoResetFor (burstSteps (State.initial 2).chainLength) (State.initial 2) := by decide
theorem witness_CommandWithoutReadyHasNoStep :
    midBurst.tx ≠ .idle ∧ ∀ reg data, Instr.wrDig0 1 0xFF#8 ≠ .encode reg data := ⟨by decide, fun _ _ h => by cases h⟩
theorem witness_LastInstallForADeviceWins :
    (State.initial 2).tx = .idle ∧ 1 ≤ 2 ∧ 2 ≤ (State.initial 2).chainLength := by decide
theorem witness_RejectedCommandLeavesNoMark :
    installOperands (.wrIntensity 0 0x0F#8) = some (0, 0xA#4, 0x0F#8) ∧ (State.initial 2).tx = .idle ∧
    (0 < 1 ∨ (State.initial 2).chainLength < 0) ∧ NoResetFor 100 (State.initial 2) := by decide

/-- A block to which a command is presented, without reset. -/
def presented : State := (State.initial 2).present (.command (0x01 * 0x4000 + 0x31FF))

theorem witness_StepRunsTheDecodedInstruction :
    1 ≤ presented.chainLength ∧ presented.rstNow = false ∧ presented.tx = .idle ∧
    presented.port = .command (0x01 * 0x4000 + 0x31FF) :: [] ∧
    decode (.command (0x01 * 0x4000 + 0x31FF)) = .ok (.wrDig0 1 0xFF#8) :=
  ⟨by decide, rfl, rfl, rfl, rfl⟩
theorem witness_LatchLowStepLowersCs :
    let s : State := { block [0x0C01#16] with tx := .latchLow }
    1 ≤ s.chainLength ∧ s.rstNow = false ∧ s.tx = .latchLow := by decide
/-- The first and the last stream time index of a chain of two. -/
theorem witness_PresentStepDrivesTheStreamBit :
    let s (t : Nat) := sending [0x01FF#16, 0x0000#16] (.shift t .present) false false
    0 < 16 * (s 0).chainLength ∧ 31 < 16 * (s 31).chainLength ∧ (s 0).rstNow = false ∧ (s 31).tx = .shift 31 .present := by
  decide
theorem witness_ClkHighStepRaisesClk :
    let s := sending [0x0C01#16] (.shift 4 .clkHigh) false true
    1 ≤ s.chainLength ∧ s.rstNow = false ∧ s.tx = .shift 4 .clkHigh := by decide
/-- `t + 1 < 16·N` and `t + 1 = 16·N`. -/
theorem witness_ClkLowStepLowersClk :
    let s (t : Nat) := sending [0x0C01#16] (.shift t .clkLow) true false
    1 ≤ (s 14).chainLength ∧ (s 14).rstNow = false ∧ (s 14).tx = .shift 14 .clkLow ∧ 14 + 1 < 16 * (s 14).chainLength ∧
    16 * (s 15).chainLength ≤ 15 + 1 := by decide
theorem witness_LatchHighStepRaisesCsAndResponds :
    let s := sending [0x0C01#16] .latchHigh false true
    1 ≤ s.chainLength ∧ s.rstNow = false ∧ s.tx = .latchHigh := by decide
/-- A step of a burst, a reset, a wait, an accepted install, a NOP, a rejected install, and an install by `exec` alone. -/
theorem witness_EveryStepTakesOneSampleAndShowsNoOldFrame :
    (∃ t, step midBurst = .next t ∧ midBurst.tx ≠ .idle) ∧
    (∃ t, step { State.reset with rst := [true] } = .next t) ∧ (∃ t, step State.reset = .next t ∧ State.reset.port = []) ∧
    (∃ t, step presented = .next t ∧ t.frameOut = some 0x01FF#16) ∧
    (∃ t, step { presented with port := [.command 0x0000] } = .next t ∧ decode (.command 0x0000) = .ok .nop) ∧
    (∃ t, step { presented with port := [.command 0x3A0F] } = .next t ∧
      decode (.command 0x3A0F) = .ok (.wrIntensity 0 0x0F#8) ∧
      installOperands (.wrIntensity 0 0x0F#8) = some (0, 0xA#4, 0x0F#8) ∧ (0 < 1 ∨ presented.chainLength < 0)) ∧
    (∃ t, installOperands (.load 2 0xA#4 0x08#8) = some (2, 0xA#4, 0x08#8) ∧ 1 ≤ 2 ∧ 2 ≤ State.reset.chainLength ∧
      exec (.load 2 0xA#4 0x08#8) State.reset = .next t) :=
  ⟨⟨_, rfl, by decide⟩, ⟨_, rfl⟩, ⟨_, rfl, rfl⟩, ⟨_, rfl, by decide⟩, ⟨_, rfl, rfl⟩,
    ⟨_, rfl, rfl, rfl, .inl (by decide)⟩, ⟨_, rfl, by decide, by decide, rfl⟩⟩
theorem witness_BlockAlwaysHasAStep :
    Inv State.reset ∧ Inv midBurst ∧ Inv (State.reset.present (.frame16 0x1000#16)) :=
  ⟨reset_inv, midBurst_inv, ⟨by decide, rfl, rfl⟩⟩
theorem witness_BurstStepTakesNoCommand : Inv midBurst ∧ midBurst.tx ≠ .idle ∧ midBurst.rstNow = false :=
  ⟨midBurst_inv, by decide, rfl⟩
theorem witness_WordsAreTakenOnlyWhenReady : ∃ t, step presented = .next t ∧ t.port ≠ presented.port :=
  ⟨_, rfl, by decide⟩
theorem witness_SlotKeepsItsValueUntilInstallOrReset :
    ∃ t, step presented = .next t ∧ presented.rstNow = false ∧ t.slots[0]? ≠ presented.slots[0]? :=
  ⟨_, rfl, rfl, by decide⟩
/-- The step that presents bit 7 of V22, the first 1. -/
theorem witness_DataChangesOnlyWhileClkIsLow :
    let s := sending [0x01FF#16, 0x0000#16] (.shift 7 .present) false false
    Inv s ∧ ∃ t, step s = .next t ∧ s.rstNow = false ∧ t.pins.data ≠ s.pins.data :=
  ⟨⟨by decide, by decide, rfl, rfl⟩, _, rfl, rfl, by decide⟩
theorem witness_RunningBlockNeverRespondsConfigurationError :
    ∃ t, step midBurst = .next t ∧ .configurationError ∉ midBurst.responses := ⟨_, rfl, by decide⟩
theorem witness_ConstructionRefusesAnEmptyChain : 1 ≤ 1 ∧ { State.reset with slots := [] }.slots = [] := by decide
/-- Reset in `Idle` and in a burst. -/
theorem witness_ResetFiresInEveryState :
    let s : State := { State.reset with rst := [true] }
    let m : State := { midBurst with rst := [true] }
    1 ≤ s.chainLength ∧ s.rstNow = true ∧ 1 ≤ m.chainLength ∧ m.rstNow = true := by decide
/-- Reset in `Idle` with `DATA` at 1, in `LatchLow` before anything happened, and in a burst: the record that it ends is not
empty, empty, and not empty. -/
theorem witness_ResetEndsTheTrace :
    let d : State := { State.reset with rst := [true], pins := { restPins with data := true } }
    let l : State := { State.reset with rst := [true], tx := .latchLow }
    let m : State := { midBurst with rst := [true] }
    1 ≤ d.chainLength ∧ d.rstNow = true ∧ d.trace ++ [⟨.data, false⟩] ≠ [] ∧
    1 ≤ l.chainLength ∧ l.rstNow = true ∧ l.trace ++ [] = [] ∧ l.responses = [] ∧
    1 ≤ m.chainLength ∧ m.rstNow = true ∧ m.trace ≠ [] ∧ m.pins.cs = false := by decide
theorem witness_InvariantsHoldAfterReset : 1 ≤ Config.chainLength := by decide
/-- In a burst, and at a reset that ends one. -/
theorem witness_StepKeepsTheInvariant :
    Inv midBurst ∧ (∃ t, step midBurst = .next t) ∧ Inv { midBurst with rst := [true] } ∧
    (∃ t, step { midBurst with rst := [true] } = .next t) :=
  ⟨midBurst_inv, ⟨_, rfl⟩, ⟨by decide, by decide, rfl, rfl⟩, ⟨_, rfl⟩⟩
theorem witness_StepKeepsTheTraceWholeBursts : Inv midBurst ∧ TraceIsBursts midBurst ∧ ∃ t, step midBurst = .next t :=
  ⟨midBurst_inv, ⟨[], by simp, by decide⟩, _, rfl⟩
theorem witness_StepKeepsPinsWhereTheTraceLeftThem : PinsFollowTrace midBurst ∧ ∃ t, step midBurst = .next t :=
  ⟨show midBurst.pins = restPins.assignAll midBurst.trace by decide, _, rfl⟩
theorem witness_BurstHasTheShapeOfTheSpec : 0 < 16 * [0x01FF#16].length ∧ 15 < 16 * [0x01FF#16].length := by decide
/-- The first and the last cell, and the first and the last device. -/
theorem witness_StreamIsTheSlotsConcatenated :
    let m : Memory := [0x01FF#16, 0x0000#16]
    0 < 16 * m.length ∧ 31 < 16 * m.length ∧ 1 ≤ 1 ∧ 1 ≤ m.length ∧ 2 ≤ m.length := by decide

/-- Two SENDs, with a NOP and a LOAD to no device of the chain between them. -/
def twoSends : State :=
  { block [0x01FF#16, 0x0000#16] with
    port := [.command 0x1000, .command 0x0000, .command (0x03 * 0x4000 + 0x2A0F), .command 0x1000] }

theorem witness_TransmittingTwiceIsIdentical :
    let between : List Instr := [.nop, .load 3 0xA#4 0x0F#8]
    List.Forall₂ (fun w i => decode w = .ok i) twoSends.port (.send :: between ++ [.send]) ∧
    twoSends.port = twoSends.port ++ [] ∧
    (∀ i ∈ between, ∀ dev reg data, installOperands i = some (dev, reg, data) → dev < 1 ∨ twoSends.chainLength < dev) ∧
    IdleFor (stepsOfAll twoSends.chainLength (.send :: between ++ [.send])) twoSends := by
  refine ⟨.cons rfl (.cons rfl (.cons rfl (.cons rfl .nil))), rfl, ?_, by decide, rfl, by decide⟩
  intro i hi dev reg data h
  simp only [List.mem_cons, List.not_mem_nil, or_false] at hi
  obtain rfl | rfl := hi
  · cases h
  · cases h; decide
/-- The first and the last device. -/
theorem witness_WriteIsReflectedInItsOwnBurst :
    writeOperands (.wrDig0 1 0xFF#8) = some (1, 0x1#4, 0xFF#8) ∧ writeOperands (.wrDisptest 2 0x01#8) = some (2, 0xF#4, 0x01#8) ∧
    (State.initial 2).tx = .idle ∧ 1 ≤ (State.initial 2).chainLength ∧ 2 ≤ (State.initial 2).chainLength ∧
    NoResetFor (burstSteps (State.initial 2).chainLength) (State.initial 2) := by decide

/-- P1 and P3's first line: a write and an error, then a word left in the port. -/
def program : State :=
  { State.initial 2 with port := [.command (0x01 * 0x4000 + 0x31FF), .command 0x3A0F, .command 0x1000] }

/-- The hypotheses of the three statements about a list of operations. -/
theorem witness_lists :
    List.Forall₂ (fun w i => decode w = .ok i) [.command (0x01 * 0x4000 + 0x31FF), .command 0x3A0F]
      [.wrDig0 1 0xFF#8, .wrIntensity 0 0x0F#8] ∧
    program.port = [.command (0x01 * 0x4000 + 0x31FF), .command 0x3A0F] ++ [.command 0x1000] ∧
    IdleFor (stepsOfAll program.chainLength [.wrDig0 1 0xFF#8, .wrIntensity 0 0x0F#8]) program :=
  ⟨.cons rfl (.cons rfl .nil), rfl, by decide, rfl, by decide⟩
theorem witness_MicroStepsAgreeWithTransactions : stepsOfAll program.chainLength [.wrDig0 1 0xFF#8, .wrIntensity 0 0x0F#8] = 100 := by
  decide
/-- A slot that an install filled, and one that none did. -/
theorem witness_SlotsHoldTheLastInstalledFrames :
    0 < program.chainLength ∧ 1 < program.chainLength ∧ program.slots = List.replicate program.chainLength 0x0000#16 ∧
    lastInstall 2 0 [.wrDig0 1 0xFF#8, .wrIntensity 0 0x0F#8] = some 0x01FF#16 ∧
    lastInstall 2 1 [.wrDig0 1 0xFF#8, .wrIntensity 0 0x0F#8] = none := by decide
theorem witness_EveryCommandGetsOneResponse :
    [.wrDig0 1 0xFF#8, .wrIntensity 0 0x0F#8].flatMap (responsesOf program.chainLength) = [.ok, .addressingError] := by decide
/-- Two states that differ in the records, and one without reset, put after the records of another. -/
theorem witness_StepReadsNoGhostRecord :
    midBurst.hardware = { midBurst with trace := [] }.hardware ∧ midBurst ≠ { midBurst with trace := [] } ∧
    midBurst.rstNow = false ∧ State.afterRecordsOf midBurst midBurst ≠ midBurst := by decide
/-- Two states that differ in a slot and in a pin. -/
theorem witness_HostLearnsNothingOfTheSlots :
    let s' : State := { midBurst with slots := [0x0000#16, 0x0FFF#16], pins := restPins }
    midBurst.hostView = s'.hostView ∧ midBurst.slots ≠ s'.slots := by decide

/-- A chain of two chips, powered on with any contents. -/
def chips : Chain :=
  { cells := List.replicate 32 true, latched := [0xFFFF#16, 0x1234#16], timingKept := true, unknowns := 0 }

theorem witness_BurstDeliversEverySlotToItsDevice :
    let w : World := { block := { block [0x01FF#16, 0x0000#16] with tx := .latchLow }, chain := chips }
    Inv w.block ∧ w.block.tx = .latchLow ∧ NoResetFor (burstSteps w.block.chainLength) w.block ∧
    w.chain.length = w.block.chainLength ∧ w.chain.timingKept = true :=
  ⟨⟨by decide, rfl, rfl⟩, rfl, by decide, rfl, rfl⟩
/-- A step in `Idle`, and a reset in a burst. -/
theorem witness_ChipsSeeOnlyBursts :
    (∃ v, World.step { block := presented, chain := chips } = .next v ∧ Inv presented ∧ presented.tx = .idle) ∧
    (∃ v, World.step { block := { midBurst with rst := [true] }, chain := chips } = .next v ∧
      Inv { midBurst with rst := [true] } ∧ midBurst.tx ≠ .idle ∧ State.rstNow { midBurst with rst := [true] } = true) :=
  ⟨⟨_, rfl, ⟨by decide, rfl, rfl⟩, rfl⟩, ⟨_, rfl, ⟨by decide, by decide, rfl, rfl⟩, by decide, rfl⟩⟩

end Sys2Proof.Tests
end

section
/-! Which steps change a slot (R12): only the acceptance of an install for the slot's own device. -/

namespace Sys2Proof.Machine

/-- All that accepting an operation can do to the buffer: nothing, or the one install its operands name (R80, R110). -/
theorem accepted_slots_cases (i : Instr) (s : State) :
    (accepted i s).slots = s.slots ∨
    ∃ dev reg data, installOperands i = some (dev, reg, data) ∧ validDev s.chainLength dev = true ∧
      (accepted i s).slots = s.slots.set (slotIndex dev) (encodeFrame reg data) := by
  rcases accepted_cases i s with
    ⟨_, _, h, _⟩ | ⟨dev, reg, data, hi, hv, _, h⟩ | ⟨_, h⟩ | ⟨dev, reg, data, hi, _, hv, h⟩
  · exact .inl (by rw [h])
  · exact .inr ⟨dev, reg, data, hi, hv, by simp [h]⟩
  · exact .inl (by simp [h])
  · exact .inr ⟨dev, reg, data, hi, hv, by simp [h]⟩

/-- A slot that an acceptance changes is the one its operands name, and now holds their frame. -/
theorem accepted_changes_own_slot {i : Instr} {s : State} {j : Nat} (h : (accepted i s).slots[j]? ≠ s.slots[j]?) :
    ∃ dev reg data, installOperands i = some (dev, reg, data) ∧ validDev s.chainLength dev = true ∧
      j = slotIndex dev ∧ (accepted i s).slots[j]? = some (encodeFrame reg data) := by
  obtain hs | ⟨dev, reg, data, hi, hv, hs⟩ := accepted_slots_cases i s
  · exact absurd (by rw [hs]) h
  · have hj : j = slotIndex dev := by
      by_contra hne
      exact h (by rw [hs, List.getElem?_set_ne (Ne.symm hne)])
    subst hj
    exact ⟨dev, reg, data, hi, hv, rfl, by rw [hs, List.getElem?_set_self (slotIndex_lt hv)]⟩

/-- Settles O29: of the steps without reset, waiting and the sequencer leave the buffer alone, and an acceptance changes
only the slot it installs into. -/
theorem slotKeepsItsValueUntilInstallOrReset : Obligations.SlotKeepsItsValueUntilInstallOrReset := by
  intro s t j h hr hne
  obtain ⟨-, ⟨hr', -⟩ | ⟨-, ht, hq⟩ | ⟨-, -, -, rfl⟩ | ⟨-, ht, w, ws, i, hp, hd, rfl⟩⟩ := step_cases h
  · rw [hr] at hr'; cases hr'
  · obtain ⟨hslots, -⟩ := sequencerStep_frame (s := s.sampled) ht hq
    exact absurd (by rw [hslots, sampled_slots]) hne
  · exact absurd rfl hne
  · obtain ⟨dev, reg, data, hi, hv, hj, hf⟩ := accepted_changes_own_slot hne
    obtain ⟨h1, hN⟩ := validDev_iff.mp hv
    exact ⟨ht, w, ws, i, dev, reg, data, hp, hd, hi, h1, hN, hj, hf⟩

end Sys2Proof.Machine
end

section
/-! The bits of an encoded frame (R70, R74), one by one and in the order sent (R73). -/

namespace Sys2Proof.Machine

/-- Where each bit of an encoded frame comes from: the low eight from `data`, those above from `reg`, which reads 0 past
its four bits. -/
theorem getLsbD_encodeFrame (reg : RegAddr) (data : DataByte) (i : Nat) :
    (encodeFrame reg data).getLsbD i = if i < 8 then data.getLsbD i else reg.getLsbD (i - 8) := by
  have zeros : (0#4 ++ reg).getLsbD (i - 8) = reg.getLsbD (i - 8) := by
    rw [BitVec.getLsbD_append, BitVec.getLsbD_zero]
    exact ite_eq_left_iff.mpr fun h => (BitVec.getLsbD_of_ge reg _ (by omega)).symm
  rw [encodeFrame, BitVec.getLsbD_append, zeros]

/-- The table of R74, row by row. -/
theorem frameBits_encodeFrame (reg : RegAddr) (data : DataByte) :
    frameBits (encodeFrame reg data) =
      [false, false, false, false] ++ [3, 2, 1, 0].map reg.getLsbD ++ [7, 6, 5, 4, 3, 2, 1, 0].map data.getLsbD := by
  calc frameBits (encodeFrame reg data)
      = [7, 6, 5, 4, 3, 2, 1, 0].map reg.getLsbD ++ [7, 6, 5, 4, 3, 2, 1, 0].map data.getLsbD := by
        simp only [frameBits, getLsbD_encodeFrame]; rfl
    _ = _ := by simp [BitVec.getLsbD_of_ge]

/-- Settles O1: the three fields, and the 16 bits in the order sent. -/
theorem frameHasItsFieldsMsbFirst : Obligations.FrameHasItsFieldsMsbFirst := fun reg data =>
  ⟨encodeFrame_topNibble reg data, encodeFrame_reg reg data, encodeFrame_data reg data, frameBits_encodeFrame reg data⟩

end Sys2Proof.Machine
end

section
/-! What an install with a device address outside `1 … N` does (R84, R144): one AddressingError and nothing else. -/

namespace Sys2Proof.Machine

/-- The installing operations are LOAD and the writes. -/
theorem installOperands_cases {i : Instr} {dev : Nat} {reg : RegAddr} {data : DataByte}
    (h : installOperands i = some (dev, reg, data)) :
    i = .load dev reg data ∨ writeOperands i = some (dev, reg, data) := by
  cases i with
  | load => exact .inl (by simpa [installOperands] using h)
  | _ => exact .inr h

theorem accepted_of_writeOperands {i : Instr} {dev : Nat} {reg : RegAddr} {data : DataByte}
    (h : writeOperands i = some (dev, reg, data)) (s : State) : accepted i s = acceptWrite dev reg data s := by
  simp only [accepted, h]

/-- LOAD and the writes reject an invalid device address alike. -/
theorem accepted_invalid {i : Instr} {dev : Nat} {reg : RegAddr} {data : DataByte} {s : State}
    (hi : installOperands i = some (dev, reg, data)) (hv : validDev s.chainLength dev = false) :
    accepted i s = raiseError .addressingError s := by
  obtain rfl | hw := installOperands_cases hi
  · exact acceptLoad_invalid hv reg data
  · rw [accepted_of_writeOperands hw, acceptWrite_invalid hv]

/-- Settles O11: in `Idle` the operation is accepted, and its acceptance is the rejection of its device address. -/
theorem invalidDeviceIsRejectedWithoutEffect : Obligations.InvalidDeviceIsRejectedWithoutEffect := by
  intro i dev reg data s hi ht hdev
  rw [exec_idle i ht, accepted_invalid hi (validDev_false_iff.mpr hdev)]
  rfl

end Sys2Proof.Machine
end

section
/-! One operation, and a list of operations, from `Idle`: the micro-steps come to the transactions (R101). -/

namespace Sys2Proof.Machine

/-! ### The effect of a transaction -/

theorem effect_of_writeOperands {i : Instr} {dev : Nat} {reg : RegAddr} {data : DataByte}
    (h : writeOperands i = some (dev, reg, data)) (s : State) : effect i s = transactWrite dev reg data s := by
  simp only [effect, h]

/-- A transaction neither reads nor writes `TX`, the port and the reset input. -/
theorem effect_withInputs (i : Instr) (x : Tx) (p : List EncodedWord) (r : List Bool) (s : State) :
    effect i { s with tx := x, port := p, rst := r } = { effect i s with tx := x, port := p, rst := r } := by
  have hN : State.chainLength { s with tx := x, port := p, rst := r } = s.chainLength := rfl
  unfold effect
  split
  case h_1 dev reg data _ =>
    unfold transactWrite
    rw [hN]
    split
    · simp only [transmit_eq]; rfl
    · rfl
  case h_2 =>
    split
    · rfl
    · unfold acceptLoad; rw [hN]; split <;> rfl
    · simp only [transmit_eq]
    · rfl

theorem transact_withInputs (i : Instr) (x : Tx) (p : List EncodedWord) (r : List Bool) (s : State) :
    transact i { s with tx := x, port := p, rst := r } = { transact i s with tx := x, port := p, rst := r } :=
  effect_withInputs i x p r (hideFrame s)

/-! ### One operation -/

/-- An operation that sends no burst has its whole effect when it is accepted. -/
theorem accepted_eq_effect {i : Instr} {s : State} (h : sendsBurst s.chainLength i = false) :
    accepted i s = effect i s := by
  cases hw : writeOperands i with
  | some a =>
    obtain ⟨dev, reg, data⟩ := a
    have hv : validDev s.chainLength dev = false := by simpa only [sendsBurst, hw] using h
    rw [accepted_of_writeOperands hw, effect_of_writeOperands hw, acceptWrite_invalid hv, transactWrite_invalid hv]
  | none =>
    have hi : i ≠ .send := by simpa [sendsBurst, hw] using h
    cases i with
    | send => exact absurd rfl hi
    | encode | nop | load => rfl
    | _ => simp only [writeOperands, reduceCtorEq] at hw

/-- An operation that sends a burst begins it, when it is accepted, in the very state its transaction transmits. -/
theorem sendsBurst_accepted_effect {i : Instr} {s : State} (h : sendsBurst s.chainLength i = true) :
    ∃ t, accepted i s = setTx .latchLow t ∧ effect i s = transmit t ∧
      t.tx = s.tx ∧ t.port = s.port ∧ t.rst = s.rst ∧ t.chainLength = s.chainLength := by
  cases hw : writeOperands i with
  | some a =>
    obtain ⟨dev, reg, data⟩ := a
    have hv : validDev s.chainLength dev = true := by simpa only [sendsBurst, hw] using h
    refine ⟨install dev reg data s, ?_, ?_, rfl, rfl, rfl, install_chainLength dev reg data s⟩
    · rw [accepted_of_writeOperands hw, acceptWrite_valid hv]
    · rw [effect_of_writeOperands hw, transactWrite_valid hv]
  | none =>
    obtain rfl : i = .send := by simpa [sendsBurst, hw] using h
    exact ⟨s, rfl, rfl, rfl, rfl, rfl, rfl⟩

/-- The sequencer's steps of a burst come to the loop of R90. -/
theorem steps_burst {t : State} (hn : 1 ≤ t.chainLength) (ht : t.tx = .idle)
    (hr : NoResetFor (burstSteps t.chainLength) t) :
    steps (burstSteps t.chainLength) (setTx .latchLow t) =
      .next { transmit t with rst := t.rst.drop (burstSteps t.chainLength) } := by
  calc steps (burstSteps t.chainLength) (setTx .latchLow t)
      = .next (inBurst (setTx .latchLow t) (burstSteps t.chainLength)) :=
        steps_inBurst (s := setTx .latchLow t) hn rfl (Nat.le_refl _) hr
    _ = _ := by rw [inBurst_done (s := setTx .latchLow t) (k := burstSteps t.chainLength) rfl, transmit_eq, ← ht]; rfl

theorem NoResetFor.drop {j k : Nat} {s t : State} (h : NoResetFor (j + k) s) (ht : t.rst = s.rst.drop j) :
    NoResetFor k t := by
  intro b hb
  rw [ht, List.take_drop] at hb
  exact h b (List.mem_of_mem_drop hb)

/-- From `Idle` the steps of one operation come to its transaction. -/
theorem steps_stepsOf {s : State} {w : EncodedWord} {ws : List EncodedWord} {i : Instr}
    (hs : IdleFor (stepsOf s.chainLength i) s) (hp : s.port = w :: ws) (hd : decode w = .ok i) :
    steps (stepsOf s.chainLength i) s =
      .next (transact i { s with port := ws, rst := s.rst.drop (stepsOf s.chainLength i) }) := by
  obtain ⟨hn, ht, hr⟩ := hs
  have hfirst (hnow : s.rstNow = false) : steps 1 s = .next (accepted i (s.takingWord ws)) := by
    rw [steps, step_accept hn hnow ht hp hd, exec_idle (s := s.takingWord ws) i ht]
    rfl
  cases hb : sendsBurst s.chainLength i with
  | false =>
    have h1 : stepsOf s.chainLength i = 1 := by simp [stepsOf, hb]
    rw [h1] at hr ⊢
    rw [hfirst hr.now, accepted_eq_effect (s := s.takingWord ws) hb, List.drop_one]
    rfl
  | true =>
    have h1 : stepsOf s.chainLength i = 1 + burstSteps s.chainLength := by simp [stepsOf, hb]
    rw [h1] at hr ⊢
    obtain ⟨t, hacc, heff, htx, hport, hrst, hlen⟩ := sendsBurst_accepted_effect (s := s.takingWord ws) hb
    rw [takingWord_chainLength] at hlen
    have hburst := steps_burst (hlen ▸ hn) (htx.trans ht) (hlen ▸ hr.drop (hrst.trans List.drop_one.symm))
    rw [hlen, hrst, takingWord_rst, ← List.drop_one, List.drop_drop] at hburst
    have htransact : transact i { s with port := ws, rst := s.rst.drop (1 + burstSteps s.chainLength) } =
        { transmit t with tx := s.tx, port := ws, rst := s.rst.drop (1 + burstSteps s.chainLength) } :=
      heff ▸ effect_withInputs i s.tx ws _ (s.takingWord ws)
    rw [steps_trans (hfirst (hr.mono (Nat.le_add_right 1 _)).now), hacc, hburst, htransact, transmit_eq, htx, hport]
    rfl

/-! ### A list of operations -/

theorem stepsOfAll_cons (n : Nat) (i : Instr) (is : List Instr) :
    stepsOfAll n (i :: is) = stepsOf n i + stepsOfAll n is := by
  simp [stepsOfAll]

theorem transactAll_cons (i : Instr) (is : List Instr) (s : State) :
    transactAll (i :: is) s = transactAll is (transact i s) := rfl

/-- From `Idle` the steps of a list of operations come to their transactions, one after the other. -/
theorem steps_stepsOfAll {ws : List EncodedWord} {is : List Instr} (hd : List.Forall₂ (fun w i => decode w = .ok i) ws is)
    {n : Nat} {s : State} {rest : List EncodedWord} (hN : s.chainLength = n) (hp : s.port = ws ++ rest)
    (hs : IdleFor (stepsOfAll n is) s) :
    steps (stepsOfAll n is) s =
      .next (transactAll is { s with port := rest, rst := s.rst.drop (stepsOfAll n is) }) := by
  induction hd generalizing s with
  | nil =>
    obtain rfl : s.port = rest := hp
    rfl
  | @cons w i ws is hwi _ ih =>
    obtain ⟨hn, ht, hr⟩ := hs
    have inputs (p : List EncodedWord) (r : List Bool) :
        transact i { s with port := p, rst := r } = { transact i s with tx := s.tx, port := p, rst := r } :=
      transact_withInputs i s.tx p r s
    have hlen : State.chainLength
        { transact i s with tx := s.tx, port := ws ++ rest, rst := s.rst.drop (stepsOf n i) } = n :=
      (transact_chainLength i s).trans hN
    rw [stepsOfAll_cons] at hr ⊢
    have one := steps_stepsOf (hN ▸ ⟨hn, ht, hr.mono (Nat.le_add_right _ _)⟩) hp hwi
    rw [hN, inputs] at one
    rw [steps_trans one, transactAll_cons, inputs rest, ← List.drop_drop]
    exact ih hlen rfl ⟨hn.trans_eq (hN.trans hlen.symm), ht, hr.drop rfl⟩

end Sys2Proof.Machine
end

section
/-! The frame each slot holds after a list of operations (R82). -/

namespace Sys2Proof.Machine

/-- The frame that `i`, given to a chain of `n` devices, puts in slot `j`, if it installs there (R80, R110). -/
def installFor (n j : Nat) (i : Instr) : Option Frame :=
  match installOperands i with
  | some (dev, reg, data) => if validDev n dev && slotIndex dev == j then some (encodeFrame reg data) else none
  | none => none

theorem installFor_of_installOperands {i : Instr} {dev : Nat} {reg : RegAddr} {data : DataByte} (n j : Nat)
    (h : installOperands i = some (dev, reg, data)) :
    installFor n j i = if validDev n dev && slotIndex dev == j then some (encodeFrame reg data) else none := by
  simp only [installFor, h]

theorem installFor_of_none {i : Instr} (n j : Nat) (h : installOperands i = none) : installFor n j i = none := by
  simp only [installFor, h]

theorem lastInstall_eq (n j : Nat) (is : List Instr) : lastInstall n j is = is.reverse.findSome? (installFor n j) := rfl

theorem lastInstall_cons (n j : Nat) (i : Instr) (is : List Instr) :
    lastInstall n j (i :: is) = (lastInstall n j is).or (installFor n j i) := by
  simp [lastInstall_eq, List.findSome?_append]

/-- Accepting an install for a device of the chain writes its slot, whether a burst follows or not. -/
theorem accepted_slots_of_valid {i : Instr} {dev : Nat} {reg : RegAddr} {data : DataByte} {s : State}
    (hi : installOperands i = some (dev, reg, data)) (hv : validDev s.chainLength dev = true) :
    (accepted i s).slots = s.slots.set (slotIndex dev) (encodeFrame reg data) := by
  obtain rfl | hw := installOperands_cases hi
  · exact congrArg State.slots (acceptLoad_valid hv reg data)
  · rw [accepted_of_writeOperands hw, acceptWrite_valid hv, setTx_slots, install_slots]

theorem accepted_slots_of_none {i : Instr} (hi : installOperands i = none) (s : State) :
    (accepted i s).slots = s.slots := by
  obtain h | ⟨_, _, _, h, _⟩ := accepted_slots_cases i s
  · exact h
  · rw [hi] at h; cases h

/-- What each slot holds when an operation has been accepted. -/
theorem accepted_slots_getElem? (i : Instr) (s : State) {j : Nat} (hj : j < s.chainLength) :
    (accepted i s).slots[j]? = (installFor s.chainLength j i).or s.slots[j]? := by
  cases hi : installOperands i with
  | none => rw [accepted_slots_of_none hi, installFor_of_none _ _ hi, Option.none_or]
  | some a =>
    obtain ⟨dev, reg, data⟩ := a
    rw [installFor_of_installOperands _ _ hi]
    cases hv : validDev s.chainLength dev with
    | false => rw [accepted_invalid hi hv]; rfl
    | true =>
      rw [accepted_slots_of_valid hi hv]
      by_cases hd : slotIndex dev = j
      · subst hd; rw [List.getElem?_set_self hj]; simp
      · rw [List.getElem?_set_ne hd]; simp [hd]

/-- A burst leaves the buffer as the acceptance of its operation left it. -/
theorem effect_slots (i : Instr) (s : State) : (effect i s).slots = (accepted i s).slots := by
  cases hb : sendsBurst s.chainLength i with
  | false => rw [accepted_eq_effect hb]
  | true =>
    obtain ⟨t, hacc, heff, -⟩ := sendsBurst_accepted_effect hb
    rw [hacc, heff, transmit_eq, setTx_slots]

theorem transact_slots_getElem? (i : Instr) (s : State) {j : Nat} (hj : j < s.chainLength) :
    (transact i s).slots[j]? = (installFor s.chainLength j i).or s.slots[j]? := by
  rw [transact, effect_slots]
  exact accepted_slots_getElem? i (hideFrame s) hj

theorem transactAll_chainLength (is : List Instr) (s : State) : (transactAll is s).chainLength = s.chainLength := by
  induction is generalizing s with
  | nil => rfl
  | cons i is ih => rw [transactAll_cons, ih, transact_chainLength]

theorem transactAll_slots_getElem? (is : List Instr) (s : State) {j : Nat} (hj : j < s.chainLength) :
    (transactAll is s).slots[j]? = (lastInstall s.chainLength j is).or s.slots[j]? := by
  induction is generalizing s with
  | nil => rfl
  | cons i is ih =>
    have hlen := transact_chainLength i s
    rw [transactAll_cons, ih _ (hlen ▸ hj), hlen, transact_slots_getElem? i s hj, lastInstall_cons, Option.or_assoc]

/-- Settles O45: the steps come to the transactions, and of these the last install for a slot decides it. -/
theorem slotsHoldTheLastInstalledFrames : Obligations.SlotsHoldTheLastInstalledFrames := by
  intro s ws rest is hd hp hs
  refine ⟨_, steps_stepsOfAll hd rfl hp hs, transactAll_chainLength is _, fun j hj => ?_⟩
  have hslot := transactAll_slots_getElem? is
    { s with port := rest, rst := s.rst.drop (stepsOfAll s.chainLength is) } hj
  refine ⟨hslot, fun hzero => hslot.trans ?_⟩
  have hj0 : s.slots[j]? = some 0x0000#16 := by rw [hzero, List.getElem?_replicate_of_lt hj]
  show (lastInstall s.chainLength j is).or s.slots[j]? = _
  rw [hj0, Option.or_some]

end Sys2Proof.Machine
end

section
/-! The sequencer's steps that lower `CS` and move `CLK` (R95, R97, R98). -/

namespace Sys2Proof.Machine

theorem sequencerStep_latchLow {s : State} (h : s.tx = .latchLow) : sequencerStep s = .next (latchLowStep s) := by
  simp only [sequencerStep, h]

theorem sequencerStep_clkHigh {s : State} {k : Nat} (h : s.tx = .shift k .clkHigh) :
    sequencerStep s = .next (clkHighStep k s) := by
  simp only [sequencerStep, h]

theorem sequencerStep_clkLow {s : State} {k : Nat} (h : s.tx = .shift k .clkLow) :
    sequencerStep s = .next (clkLowStep k s) := by
  simp only [sequencerStep, h]

theorem afterBit_more {n t : Nat} (h : t + 1 < 16 * n) : afterBit n t = .shift (t + 1) .present := if_pos h

theorem afterBit_last {n t : Nat} (h : 16 * n ≤ t + 1) : afterBit n t = .latchHigh := if_neg (Nat.not_lt.mpr h)

/-- Settles O20: the step is `latchLowStep` of the sampled state. -/
theorem latchLowStepLowersCs : Obligations.LatchLowStepLowersCs := by
  intro s hn hr ht
  have hstep := (step_sequence hn hr (by simp [ht])).trans (sequencerStep_latchLow (s := s.sampled) ht)
  exact ⟨_, hstep, rfl, rfl, rfl, rfl, rfl, rfl, rfl⟩

/-- Settles O22: the step is `clkHighStep` of the sampled state. -/
theorem clkHighStepRaisesClk : Obligations.ClkHighStepRaisesClk := by
  intro s k hn hr ht
  have hstep := (step_sequence hn hr (by simp [ht])).trans (sequencerStep_clkHigh (s := s.sampled) ht)
  exact ⟨_, hstep, rfl, rfl, rfl, rfl, rfl, rfl, rfl⟩

/-- Settles O23: the step is `clkLowStep` of the sampled state, and `afterBit` names its two successors. -/
theorem clkLowStepLowersClk : Obligations.ClkLowStepLowersClk := by
  intro s k hn hr ht
  have hstep := (step_sequence hn hr (by simp [ht])).trans (sequencerStep_clkLow (s := s.sampled) ht)
  exact ⟨_, hstep, afterBit_more, afterBit_last, rfl, rfl, rfl, rfl, rfl, rfl⟩

end Sys2Proof.Machine
end

section
/-! Two SENDs with no successful install between them (R93). -/

namespace Sys2Proof.Machine

theorem transactAll_withInputs (is : List Instr) (x : Tx) (p : List EncodedWord) (r : List Bool) (s : State) :
    transactAll is { s with tx := x, port := p, rst := r } = { transactAll is s with tx := x, port := p, rst := r } := by
  induction is generalizing s with
  | nil => rfl
  | cons i is ih => rw [transactAll_cons, transact_withInputs, ih, transactAll_cons]

theorem stepsOfAll_append (n : Nat) (is js : List Instr) :
    stepsOfAll n (is ++ js) = stepsOfAll n is + stepsOfAll n js := by
  simp [stepsOfAll]

/-- The words of a list of operations, cut where the operations are cut. -/
theorem decoded_append {ws : List EncodedWord} {is js : List Instr}
    (h : List.Forall₂ (fun w i => decode w = .ok i) ws (is ++ js)) :
    ∃ us vs, ws = us ++ vs ∧ List.Forall₂ (fun w i => decode w = .ok i) us is ∧
      List.Forall₂ (fun w i => decode w = .ok i) vs js :=
  ⟨_, _, (List.take_append_drop is.length ws).symm, List.forall₂_take_append _ _ _ h, List.forall₂_drop_append _ _ _ h⟩

/-- The first operations of a list come to their transactions, and the block is then ready for those that follow. -/
theorem steps_stepsOfAll_append {ws rest : List EncodedWord} {is js : List Instr} {s : State}
    (hd : List.Forall₂ (fun w i => decode w = .ok i) ws (is ++ js)) (hp : s.port = ws ++ rest)
    (hs : IdleFor (stepsOfAll s.chainLength (is ++ js)) s) :
    ∃ t vs, steps (stepsOfAll s.chainLength is) s = .next t ∧
      t.slots = (transactAll is s).slots ∧ t.trace = (transactAll is s).trace ∧ t.chainLength = s.chainLength ∧
      List.Forall₂ (fun w i => decode w = .ok i) vs js ∧ t.port = vs ++ rest ∧
      IdleFor (stepsOfAll s.chainLength js) t := by
  obtain ⟨us, vs, rfl, hus, hvs⟩ := decoded_append hd
  obtain ⟨hn, ht, hr⟩ := hs
  rw [stepsOfAll_append] at hr
  have hrun := steps_stepsOfAll hus rfl (hp.trans (List.append_assoc us vs rest)) ⟨hn, ht, hr.mono (Nat.le_add_right _ _)⟩
  have hinputs := transactAll_withInputs is s.tx (vs ++ rest) (s.rst.drop (stepsOfAll s.chainLength is)) s
  have hlen := transactAll_chainLength is s
  exact ⟨_, vs, hrun.trans (congrArg _ hinputs), rfl, rfl, hlen, hvs, rfl, hn.trans_eq hlen.symm, ht, hr.drop rfl⟩

/-- An operation that installs nowhere in the chain leaves the buffer alone. -/
theorem transact_slots_of_noInstall {i : Instr} {s : State}
    (h : ∀ dev reg data, installOperands i = some (dev, reg, data) → validDev s.chainLength dev = false) :
    (transact i s).slots = s.slots := by
  rw [transact, effect_slots]
  obtain hs | ⟨dev, reg, data, hi, hv, -⟩ := accepted_slots_cases i (hideFrame s)
  · exact hs
  · rw [hideFrame_chainLength, h dev reg data hi] at hv; cases hv

theorem transactAll_slots_of_noInstall {is : List Instr} {s : State}
    (h : ∀ i ∈ is, ∀ dev reg data, installOperands i = some (dev, reg, data) → validDev s.chainLength dev = false) :
    (transactAll is s).slots = s.slots := by
  induction is generalizing s with
  | nil => rfl
  | cons i is ih =>
    have htail := ih (s := transact i s) fun j hj => by
      rw [transact_chainLength]; exact h j (List.mem_cons_of_mem i hj)
    rw [transactAll_cons, htail, transact_slots_of_noInstall (h i List.mem_cons_self)]

theorem stepsOfAll_send (n : Nat) : stepsOfAll n [.send] = burstSteps n + 1 := by
  simp [stepsOfAll, stepsOf, sendsBurst, writeOperands, Nat.add_comm]

theorem transactAll_send (s : State) : transactAll [.send] s = transmit (hideFrame s) := rfl

/-- One SEND at the head of a list: the burst of the buffer, which it leaves as it was, and the block ready for the rest. -/
theorem steps_send {ws rest : List EncodedWord} {js : List Instr} {s : State}
    (hd : List.Forall₂ (fun w i => decode w = .ok i) ws (.send :: js)) (hp : s.port = ws ++ rest)
    (hs : IdleFor (stepsOfAll s.chainLength (.send :: js)) s) :
    ∃ t vs, steps (burstSteps s.chainLength + 1) s = .next t ∧
      t.slots = s.slots ∧ t.trace = s.trace ++ burstEvents s.slots ∧
      List.Forall₂ (fun w i => decode w = .ok i) vs js ∧ t.port = vs ++ rest ∧
      IdleFor (stepsOfAll s.chainLength js) t := by
  obtain ⟨t, vs, hrun, hslots, htrace, -, hvs, hport, hidle⟩ := steps_stepsOfAll_append (is := [.send]) hd hp hs
  rw [stepsOfAll_send] at hrun
  rw [transactAll_send, transmit_eq] at hslots htrace
  exact ⟨t, vs, hrun, hslots, htrace, hvs, hport, hidle⟩

/-- Settles O42: each SEND emits the burst of the buffer it finds, and nothing between them changes the buffer. -/
theorem transmittingTwiceIsIdentical : Obligations.TransmittingTwiceIsIdentical := by
  intro s ws rest between hd hp hinstalls hs
  obtain ⟨t, us, hst, htslots, httrace, hus, htport, htidle⟩ := steps_send hd hp hs
  have htlen : t.chainLength = s.chainLength := congrArg List.length htslots
  rw [← htlen] at htidle
  obtain ⟨u, vs, htu, huslots, -, hulen, hvs, huport, huidle⟩ := steps_stepsOfAll_append hus htport htidle
  rw [← hulen] at huidle
  obtain ⟨v, -, huv, hvslots, hvtrace, -⟩ := steps_send hvs huport huidle
  have hkept : u.slots = s.slots := by
    rw [huslots, transactAll_slots_of_noInstall, htslots]
    exact fun i hi dev reg data h => htlen ▸ validDev_false_iff.mpr (hinstalls i hi dev reg data h)
  rw [htlen] at htu hulen
  rw [hulen] at huv
  rw [hkept] at hvslots hvtrace
  exact ⟨t, u, v, hst, htu, huv, httrace, hvtrace, htslots, hkept, hvslots⟩

end Sys2Proof.Machine
end

section
/-! The decoder and the encoder, in both directions: words of instructions (R55, R62, R63) and frames (R51, R72). -/

namespace Sys2Proof.Machine

open Sys2Proof.Laws

/-! ### Instructions -/

/-- Settles O3: each constructor's word decodes to it, the writes through the name of their register address. -/
theorem decodeOfEncodeIsTheInstruction : Obligations.DecodeOfEncodeIsTheInstruction
  | .encode reg data => RoundTrip.encode reg data
  | .nop => RoundTrip.nop
  | .send => RoundTrip.send
  | .load dev reg data => RoundTrip.load dev reg data
  | .write dev reg data => RoundTrip.write dev reg data
  | .wrNoop dev data => RoundTrip.wrNoop dev data
  | .wrDig0 dev data => RoundTrip.wrDig0 dev data
  | .wrDig1 dev data => RoundTrip.wrDig1 dev data
  | .wrDig2 dev data => RoundTrip.wrDig2 dev data
  | .wrDig3 dev data => RoundTrip.wrDig3 dev data
  | .wrDig4 dev data => RoundTrip.wrDig4 dev data
  | .wrDig5 dev data => RoundTrip.wrDig5 dev data
  | .wrDig6 dev data => RoundTrip.wrDig6 dev data
  | .wrDig7 dev data => RoundTrip.wrDig7 dev data
  | .wrDecode dev data => RoundTrip.wrDecode dev data
  | .wrIntensity dev data => RoundTrip.wrIntensity dev data
  | .wrScanlimit dev data => RoundTrip.wrScanlimit dev data
  | .wrShutdown dev data => RoundTrip.wrShutdown dev data
  | .wrDisptest dev data => RoundTrip.wrDisptest dev data

/-- What a command word decodes to, below `op = 11`, by its `op`; `RoundTrip.decode_writeWord` is the fourth case. -/
theorem decode_commandWord (dev : Nat) (reg : RegAddr) (data : DataByte) :
    decode (commandWord dev 0 reg data) = .ok .nop ∧ decode (commandWord dev 1 reg data) = .ok .send ∧
    decode (commandWord dev 2 reg data) = .ok (.load dev reg data) := by
  have fields (op : Nat) (hop : op < 4) := RoundTrip.fields_commandWord dev op reg data hop _ rfl
  obtain ⟨hnop, -⟩ := fields 0 (by decide)
  obtain ⟨hsend, -⟩ := fields 1 (by decide)
  obtain ⟨hload, hdev, hreg, hdata⟩ := fields 2 (by decide)
  simp only [commandWord, decode, decodeCommand, hnop, hsend, hload, hdev, hreg, hdata, and_self]

/-- Settles O4: by `op`, and for `op = 11` by the name of each register address. -/
theorem decodeNamesCommandsByOpAndReg : Obligations.DecodeNamesCommandsByOpAndReg := by
  intro dev reg data
  obtain ⟨hnop, hsend, hload⟩ := decode_commandWord dev reg data
  have hwrite := RoundTrip.decode_writeWord dev reg data
  refine ⟨hnop, hsend, hload, ?_, ?_, ?_, ?_, ?_, ?_, ?_, ?_, ?_, ?_, ?_, ?_, ?_, ?_, ?_⟩
  case refine_14 => rintro (rfl | rfl) <;> exact hwrite
  all_goals rintro rfl; exact hwrite

/-- The name of a write keeps its operands (R62). -/
theorem writeOperands_nameWrite (dev : Nat) (reg : RegAddr) (data : DataByte) :
    writeOperands (nameWrite dev reg data) = some (dev, reg, data) := by
  obtain ⟨r⟩ := reg
  fin_cases r <;> rfl

/-- A write keeps the name WRITE only where its register address has no other (R62). -/
theorem nameWrite_wellFormed (dev : Nat) (reg : RegAddr) (data : DataByte) :
    (nameWrite dev reg data).wellFormed = true := by
  obtain ⟨r⟩ := reg
  fin_cases r <;> rfl

/-- Everything a command word can decode to. -/
theorem decodeCommand_cases (cw : Nat) :
    decodeCommand cw = .nop ∨ decodeCommand cw = .send ∨ decodeCommand cw = .load (cwDev cw) (cwReg cw) (cwData cw) ∨
    decodeCommand cw = nameWrite (cwDev cw) (cwReg cw) (cwData cw) := by
  unfold decodeCommand
  split
  · exact .inl rfl
  · exact .inr (.inl rfl)
  · exact .inr (.inr (.inl rfl))
  · exact .inr (.inr (.inr rfl))

theorem decodeCommand_wellFormed (cw : Nat) : (decodeCommand cw).wellFormed = true := by
  obtain h | h | h | h := decodeCommand_cases cw <;> rw [h]
  case inr.inr.inr => exact nameWrite_wellFormed _ _ _
  all_goals rfl

/-- ENCODE is no command (R50). -/
theorem decodeCommand_ne_encode (cw : Nat) (reg : RegAddr) (data : DataByte) : decodeCommand cw ≠ .encode reg data := by
  obtain h | h | h | h := decodeCommand_cases cw <;> rw [h]
  case inr.inr.inr =>
    intro he
    have hw := writeOperands_nameWrite (cwDev cw) (cwReg cw) (cwData cw)
    rw [he] at hw
    cases hw
  all_goals exact Instr.noConfusion

/-! ### Frames -/

/-- A frame's top nibble is 0 exactly when the frame, as a number, is below `0x1000` (R52). -/
theorem topNibble_eq_zero_iff (f : Frame) : f.extractLsb' 12 4 = 0#4 ↔ f.toNat < 0x1000 := by
  rw [← BitVec.toNat_inj, BitVec.extractLsb'_toNat, Nat.shiftRight_eq_div_pow, BitVec.toNat_ofNat]
  have := f.isLt
  omega

/-- ENCODE of DECODE (R72). -/
theorem decodeFrame_of_lt {f : Frame} (h : f.toNat < 0x1000) :
    ∃ reg data, decodeFrame f = some (reg, data) ∧ encodeFrame reg data = f := by
  refine ⟨f.extractLsb' 8 4, f.extractLsb' 0 8, if_pos ((topNibble_eq_zero_iff f).mpr h), BitVec.eq_of_toNat_eq ?_⟩
  simp only [toNat_encodeFrame, BitVec.extractLsb'_toNat, Nat.shiftRight_eq_div_pow]
  omega

theorem decodeFrame_of_ge {f : Frame} (h : 0x1000 ≤ f.toNat) : decodeFrame f = none :=
  if_neg fun hf => absurd ((topNibble_eq_zero_iff f).mp hf) (Nat.not_lt.mpr h)

/-- Settles O2: ENCODE as a number, DECODE after ENCODE, and ENCODE after DECODE where DECODE is valid. -/
theorem frameDecodeInvertsEncode : Obligations.FrameDecodeInvertsEncode :=
  ⟨fun reg data => ⟨toNat_encodeFrame reg data, decodeFrame_encodeFrame reg data⟩,
    fun _ => ⟨decodeFrame_of_lt, decodeFrame_of_ge⟩⟩

theorem decode_frame16_of_lt {f : Frame} (h : f.toNat < 0x1000) :
    ∃ reg data, decode (.frame16 f) = .ok (.encode reg data) ∧ encodeFrame reg data = f := by
  obtain ⟨reg, data, hd, he⟩ := decodeFrame_of_lt h
  exact ⟨reg, data, by simp only [decode, decodeFrame16, hd], he⟩

theorem decode_frame16_of_ge {f : Frame} (h : 0x1000 ≤ f.toNat) : decode (.frame16 f) = .error .topNibbleNotZero := by
  simp only [decode, decodeFrame16, decodeFrame_of_ge h]

/-- Settles O5: a command word always decodes, to a well-formed instruction, which O3 brings back; a frame decodes where
DECODE is valid. -/
theorem everyCommandWordDecodes : Obligations.EveryCommandWordDecodes :=
  ⟨fun cw => ⟨decodeCommand cw, rfl, decodeCommand_wellFormed cw,
      decodeOfEncodeIsTheInstruction _ (decodeCommand_wellFormed cw), decodeCommand_ne_encode cw⟩,
    fun _ => ⟨decode_frame16_of_lt, decode_frame16_of_ge⟩⟩

/-- Settles O6: each side evaluates. -/
theorem specWordsDecodeAsTheSpecSays : Obligations.SpecWordsDecodeAsTheSpecSays :=
  ⟨rfl, rfl, rfl, rfl, rfl, rfl, rfl⟩

/-! ### The word of an installing command -/

/-- Every write has the word of WRITE with its operands (R62). -/
theorem encode_of_writeOperands {i : Instr} {dev : Nat} {reg : RegAddr} {data : DataByte}
    (h : writeOperands i = some (dev, reg, data)) : encode i = commandWord dev 3 reg data := by
  cases i <;> simp only [writeOperands, Option.some.injEq, Prod.mk.injEq, reduceCtorEq] at h <;>
    obtain ⟨rfl, rfl, rfl⟩ := h <;> rfl

theorem encode_of_installOperands {i : Instr} {dev : Nat} {reg : RegAddr} {data : DataByte}
    (h : installOperands i = some (dev, reg, data)) : ∃ op < 4, encode i = commandWord dev op reg data := by
  obtain rfl | hw := installOperands_cases h
  · exact ⟨2, by decide, rfl⟩
  · exact ⟨3, by decide, encode_of_writeOperands hw⟩

/-- Settles O7: the word is a command word, and its fields below `op` are the frame's. -/
theorem commandWordCarriesItsFrame : Obligations.CommandWordCarriesItsFrame := by
  intro i dev reg data h
  obtain ⟨op, hop, henc⟩ := encode_of_installOperands h
  have hreg := reg.isLt
  have hdata := data.isLt
  refine ⟨_, henc, ?_, ?_⟩
  · rw [toNat_encodeFrame]; omega
  · omega

end Sys2Proof.Machine
end

section
/-! The situations a step can find, and one step of a burst in a state of the block (R94 to R100, R161). -/

namespace Sys2Proof.Machine

/-- The situations in which `step` acts differently; each has its equation among the laws `step_…`. -/
theorem situation_cases (s : State) :
    s.slots = [] ∨
    1 ≤ s.chainLength ∧
      (s.rstNow = true ∨
       s.rstNow = false ∧
        (s.tx ≠ .idle ∨
         s.tx = .idle ∧
          (s.port = [] ∨ ∃ w ws, s.port = w :: ws ∧ ((∃ i, decode w = .ok i) ∨ ∃ e, decode w = .error e)))) := by
  by_cases hslots : s.slots = []
  · exact .inl hslots
  refine .inr ⟨List.length_pos_iff.mpr hslots, ?_⟩
  cases hr : s.rstNow with
  | true => exact .inl rfl
  | false =>
    refine .inr ⟨rfl, ?_⟩
    by_cases ht : s.tx = .idle
    · refine .inr ⟨ht, ?_⟩
      cases hp : s.port with
      | nil => exact .inl rfl
      | cons w ws =>
        refine .inr ⟨w, ws, rfl, ?_⟩
        cases decode w with
        | ok i => exact .inl ⟨i, rfl⟩
        | error e => exact .inr ⟨e, rfl⟩
    · exact .inl ht

theorem Inv.chainLength_pos {s : State} (h : Inv s) : 1 ≤ s.chainLength := (Memory.wf_iff.mp h.buffer).1

/-- In a burst, a step of a state of the block emits the event at the burst's position and goes on to the next. -/
theorem Inv.burstStep {s : State} (h : Inv s) (ht : s.tx ≠ .idle) (hr : s.rstNow = false) :
    ∃ k e, k < 48 * s.chainLength + 2 ∧ s.tx = Machine.txAt s.chainLength k ∧ (burstEvents s.slots)[k]? = some e ∧
      step s = .next (afterEvent s.chainLength k e s) := by
  obtain ⟨k, hk, hx⟩ := h.txAt ht
  obtain ⟨e, he, hstep⟩ := step_position h.chainLength_pos hr hk hx
  exact ⟨k, e, hk, hx, he, hstep⟩

/-- A step of the sequencer in a burst is one event: a pin assignment, and its record. -/
theorem sequencerStep_event {s t : State} (ht : s.tx ≠ .idle) (h : sequencerStep s = .next t) :
    ∃ e, t.pins = s.pins.assign e ∧ t.trace = s.trace ++ [e] := by
  rcases sequencerStep_cases ht h with ⟨_, rfl⟩ | ⟨_, _, _, _, rfl⟩ | ⟨_, _, rfl⟩ | ⟨_, _, rfl⟩ | ⟨_, rfl⟩ <;>
    exact ⟨_, rfl, rfl⟩

end Sys2Proof.Machine
end

section
/-! The sequencer state and the responses that accepting an operation leaves (R94, R141). -/

namespace Sys2Proof.Machine

theorem installOperands_of_writeOperands {i : Instr} {dev : Nat} {reg : RegAddr} {data : DataByte}
    (h : writeOperands i = some (dev, reg, data)) : installOperands i = some (dev, reg, data) := by
  cases i with
  | load => cases h
  | _ => exact h

theorem sendsBurst_iff {n : Nat} {i : Instr} :
    sendsBurst n i = true ↔
      i = .send ∨ ∃ dev reg data, writeOperands i = some (dev, reg, data) ∧ validDev n dev = true := by
  cases hw : writeOperands i with
  | none => simp [sendsBurst, hw]
  | some a =>
    obtain ⟨dev, reg, data⟩ := a
    have hi : i ≠ .send := by rintro rfl; cases hw
    simp [sendsBurst, hw, hi]

theorem responsesOf_valid {n dev : Nat} {i : Instr} {reg : RegAddr} {data : DataByte}
    (hi : installOperands i = some (dev, reg, data)) (hv : validDev n dev = true) : responsesOf n i = [.ok] := by
  simp only [responsesOf, hi, hv, if_true]

theorem responsesOf_of_sendsBurst {n : Nat} {i : Instr} (h : sendsBurst n i = true) : responsesOf n i = [.ok] := by
  obtain rfl | ⟨dev, reg, data, hw, hv⟩ := sendsBurst_iff.mp h
  · rfl
  · exact responsesOf_valid (installOperands_of_writeOperands hw) hv

theorem configurationError_not_mem_responsesOf (n : Nat) (i : Instr) : .configurationError ∉ responsesOf n i := by
  unfold responsesOf
  split
  · split <;> decide
  · split <;> decide

theorem effect_tx (i : Instr) (s : State) : (effect i s).tx = s.tx :=
  (congrArg State.tx (effect_withInputs i s.tx s.port s.rst s) :)

/-- `TX` leaves `Idle` exactly for a burst. -/
theorem accepted_tx (i : Instr) (s : State) :
    (accepted i s).tx = if sendsBurst s.chainLength i then .latchLow else s.tx := by
  cases hb : sendsBurst s.chainLength i with
  | true =>
    obtain ⟨t, hacc, -⟩ := sendsBurst_accepted_effect hb
    rw [hacc]; rfl
  | false => rw [accepted_eq_effect hb, effect_tx]; rfl

theorem accepted_rst (i : Instr) (s : State) : (accepted i s).rst = s.rst := by
  rcases accepted_cases i s with ⟨_, _, h, _⟩ | ⟨_, _, _, _, _, _, h⟩ | ⟨_, h⟩ | ⟨_, _, _, _, _, _, h⟩ <;> rw [h] <;> simp

/-- An operation is answered when it is accepted, unless it sends a burst, which is answered at its end (R141). -/
theorem accepted_responses (i : Instr) (s : State) :
    (accepted i s).responses =
      s.responses ++ if sendsBurst s.chainLength i then [] else responsesOf s.chainLength i := by
  cases hb : sendsBurst s.chainLength i with
  | true =>
    obtain rfl | ⟨dev, reg, data, hw, hv⟩ := sendsBurst_iff.mp hb
    · exact (List.append_nil _).symm
    · rw [accepted_of_writeOperands hw, acceptWrite_valid hv]; simp
  | false =>
    rcases accepted_cases i s with
      ⟨rs, fo, h, rfl⟩ | ⟨dev, reg, data, -, -, hok, h⟩ | ⟨rfl, -⟩ | ⟨dev, reg, data, -, hw, hv, -⟩
    · rw [h]; rfl
    · rw [h, hok]; rfl
    · cases hb
    · rw [sendsBurst_iff.mpr (.inr ⟨dev, reg, data, hw, hv⟩)] at hb; cases hb

/-- As one transaction, an operation is answered in any case. -/
theorem effect_responses (i : Instr) (s : State) :
    (effect i s).responses = s.responses ++ responsesOf s.chainLength i := by
  have hacc := accepted_responses i s
  cases hb : sendsBurst s.chainLength i with
  | true =>
    obtain ⟨t, hstart, heff, -⟩ := sendsBurst_accepted_effect hb
    have ht : t.responses = s.responses := by simpa [hb, hstart] using hacc
    rw [heff, transmit_eq, responsesOf_of_sendsBurst hb, ← ht]
  | false => simpa [hb, accepted_eq_effect hb] using hacc

theorem transact_tx (i : Instr) (s : State) : (transact i s).tx = s.tx := effect_tx i (hideFrame s)

theorem transact_responses (i : Instr) (s : State) :
    (transact i s).responses = s.responses ++ responsesOf s.chainLength i := effect_responses i (hideFrame s)

theorem transactAll_tx (is : List Instr) (s : State) : (transactAll is s).tx = s.tx := by
  induction is generalizing s with
  | nil => rfl
  | cons i is ih => rw [transactAll_cons, ih, transact_tx]

theorem transactAll_responses (is : List Instr) (s : State) :
    (transactAll is s).responses = s.responses ++ is.flatMap (responsesOf s.chainLength) := by
  induction is generalizing s with
  | nil => exact (List.append_nil _).symm
  | cons i is ih =>
    rw [transactAll_cons, ih, transact_responses, transact_chainLength, List.append_assoc, List.flatMap_cons]

/-- Settles O44: `steps_stepsOfAll`, which runs the list from its first operation on. -/
theorem microStepsAgreeWithTransactions : Obligations.MicroStepsAgreeWithTransactions :=
  fun _ _ _ _ hd hp hs => steps_stepsOfAll hd rfl hp hs

/-- Settles O46: the steps come to the transactions, and each of these answers its own command. -/
theorem everyCommandGetsOneResponse : Obligations.EveryCommandGetsOneResponse := by
  intro s ws rest is hd hp hs
  exact ⟨_, steps_stepsOfAll hd rfl hp hs, (transactAll_tx is _).trans hs.2.1, transactAll_responses is _⟩

end Sys2Proof.Machine
end

section
/-! The invariants of the block: they hold right after reset, and every step keeps them. -/

namespace Sys2Proof.Machine

/-! ### `TX` and the pins -/

theorem sequencerOk_rest {s : State} (h : s.tx = .idle ∨ s.tx = .latchLow) :
    SequencerOk s ↔ s.pins.cs = true ∧ s.pins.clk = false := by
  obtain h | h := h <;> simp only [SequencerOk, h]

theorem sequencerOk_present {s : State} {k : Nat} (h : s.tx = .shift k .present) :
    SequencerOk s ↔ k < 16 * s.chainLength ∧ s.pins.cs = false ∧ s.pins.clk = false := by
  simp only [SequencerOk, h]

theorem sequencerOk_clkHigh {s : State} {k : Nat} (h : s.tx = .shift k .clkHigh) :
    SequencerOk s ↔ k < 16 * s.chainLength ∧ s.pins.cs = false ∧ s.pins.clk = false ∧
      cellRead s.slots k = some s.pins.data := by
  simp only [SequencerOk, h]

theorem sequencerOk_clkLow {s : State} {k : Nat} (h : s.tx = .shift k .clkLow) :
    SequencerOk s ↔ k < 16 * s.chainLength ∧ s.pins.cs = false ∧ s.pins.clk = true ∧
      cellRead s.slots k = some s.pins.data := by
  simp only [SequencerOk, h]

theorem sequencerOk_latchHigh {s : State} (h : s.tx = .latchHigh) :
    SequencerOk s ↔ s.pins.cs = false ∧ s.pins.clk = false := by
  simp only [SequencerOk, h]

/-- Each step of a burst hands the pins on as the next one expects them (R95 to R100). -/
theorem sequencerStep_sequencerOk {s t : State} (hn : 1 ≤ s.chainLength) (hs : SequencerOk s) (ht : s.tx ≠ .idle)
    (h : sequencerStep s = .next t) : SequencerOk t := by
  rcases sequencerStep_cases ht h with ⟨hx, rfl⟩ | ⟨k, b, hx, hb, rfl⟩ | ⟨k, hx, rfl⟩ | ⟨k, hx, rfl⟩ | ⟨hx, rfl⟩
  · obtain ⟨-, hclk⟩ := (sequencerOk_rest (.inr hx)).mp hs
    exact (sequencerOk_present rfl).mpr ⟨Nat.mul_pos (by decide) hn, rfl, hclk⟩
  · obtain ⟨hk, hcs, hclk⟩ := (sequencerOk_present hx).mp hs
    exact (sequencerOk_clkHigh rfl).mpr ⟨hk, hcs, hclk, hb⟩
  · obtain ⟨hk, hcs, -, hb⟩ := (sequencerOk_clkHigh hx).mp hs
    exact (sequencerOk_clkLow rfl).mpr ⟨hk, hcs, rfl, hb⟩
  · obtain ⟨-, hcs, -⟩ := (sequencerOk_clkLow hx).mp hs
    by_cases hk : k + 1 < 16 * s.chainLength
    · exact (sequencerOk_present (afterBit_more hk)).mpr ⟨hk, hcs, rfl⟩
    · exact (sequencerOk_latchHigh (afterBit_last (Nat.not_lt.mp hk))).mpr ⟨hcs, rfl⟩
  · obtain ⟨-, hclk⟩ := (sequencerOk_latchHigh hx).mp hs
    exact (sequencerOk_rest (.inl rfl)).mpr ⟨rfl, hclk⟩

/-! ### The invariant -/

theorem accepted_wf {i : Instr} {s : State} (h : s.slots.wf = true) : (accepted i s).slots.wf = true := by
  obtain hs | ⟨dev, reg, data, -, -, hs⟩ := accepted_slots_cases i s <;> rw [hs]
  · exact h
  · exact Memory.wf_set h _ reg data

theorem accepted_tx_rest {i : Instr} {s : State} (h : s.tx = .idle) :
    (accepted i s).tx = .idle ∨ (accepted i s).tx = .latchLow := by
  rw [accepted_tx, h]
  split
  · exact .inr rfl
  · exact .inl rfl

theorem Inv.accepted {s : State} (h : Inv s) (ht : s.tx = .idle) (i : Instr) : Inv (Machine.accepted i s) := by
  refine ⟨accepted_wf h.buffer, (sequencerOk_rest (accepted_tx_rest ht)).mpr ?_⟩
  rw [accepted_pins]
  exact (sequencerOk_rest (.inl ht)).mp h.sequencer

/-- Taking the inputs of a step does not touch what the invariant speaks of. -/
theorem Inv.takingWord {s : State} (h : Inv s) (ws : List EncodedWord) : Inv (s.takingWord ws) := ⟨h.buffer, h.sequencer⟩

theorem Inv.sampled {s : State} (h : Inv s) : Inv s.sampled := ⟨h.buffer, h.sequencer⟩

/-- Settles O37: a reset establishes the invariant anew; the sequencer keeps it event by event; an acceptance installs
frames only and leaves the pins at rest. -/
theorem stepKeepsTheInvariant : Obligations.StepKeepsTheInvariant := by
  intro s t hI h
  obtain ⟨hn, ⟨-, rfl⟩ | ⟨-, ht, hq⟩ | ⟨-, -, -, rfl⟩ | ⟨-, ht, w, ws, i, -, -, rfl⟩⟩ := step_cases h
  · exact ⟨applyReset_wf hI.sampled.buffer, rfl, rfl⟩
  · obtain ⟨hslots, -⟩ := sequencerStep_frame (s := s.sampled) ht hq
    exact ⟨hslots ▸ hI.buffer, sequencerStep_sequencerOk (s := s.sampled) hn hI.sampled.sequencer ht hq⟩
  · exact hI.sampled
  · exact (hI.takingWord ws).accepted ht i

/-! ### The trace -/

/-- `txAt` and `eventsDone` count the events of a burst alike. -/
theorem eventsDone_txAt {n k : Nat} (h : k < 48 * n + 2) : eventsDone n (txAt n k) = k := by
  rcases position_cases h with rfl | ⟨t, ht, rfl | rfl | rfl⟩ | rfl
  · rfl
  · rw [txAt_present ht]; rfl
  · rw [txAt_clkHigh ht]; rfl
  · rw [txAt_clkLow ht]; rfl
  · rw [txAt_last]; rfl

theorem eventsDone_rest {n : Nat} {x : Tx} (h : x = .idle ∨ x = .latchLow) : eventsDone n x = 0 := by
  obtain rfl | rfl := h <;> rfl

/-- With no burst begun, the trace is whole bursts only, whatever the buffer now holds. -/
theorem traceIsBursts_rest {s : State} (h : s.tx = .idle ∨ s.tx = .latchLow) :
    TraceIsBursts s ↔ ∃ images : List Memory, (∀ m ∈ images, m.length = s.chainLength) ∧
      s.trace = images.flatMap burstEvents := by
  simp only [TraceIsBursts, eventsDone_rest h, List.take_zero, List.append_nil]

theorem TraceIsBursts.accepted {s : State} (h : TraceIsBursts s) (ht : s.tx = .idle) (i : Instr) :
    TraceIsBursts (Machine.accepted i s) := by
  rw [traceIsBursts_rest (accepted_tx_rest ht), accepted_trace, accepted_chainLength]
  exact (traceIsBursts_rest (.inl ht)).mp h

/-- The next event of the burst in progress; the last one makes it a whole burst of the buffer. -/
theorem TraceIsBursts.afterEvent {s : State} {k : Nat} {e : PinEvent} (h : TraceIsBursts s)
    (hk : k < 48 * s.chainLength + 2) (hx : s.tx = txAt s.chainLength k) (he : (burstEvents s.slots)[k]? = some e) :
    TraceIsBursts (Machine.afterEvent s.chainLength k e s) := by
  obtain ⟨images, hlen, htrace⟩ := h
  rw [hx, eventsDone_txAt hk] at htrace
  have htrace' : (Machine.afterEvent s.chainLength k e s).trace =
      images.flatMap burstEvents ++ (burstEvents s.slots).take (k + 1) := by
    rw [burstEvents_take_succ he, ← List.append_assoc, ← htrace]; rfl
  by_cases hlast : k + 1 < 48 * s.chainLength + 2
  · refine ⟨images, hlen, htrace'.trans ?_⟩
    show _ = _ ++ (burstEvents s.slots).take (eventsDone s.chainLength (txAt s.chainLength (k + 1)))
    rw [eventsDone_txAt hlast]
  · have hdone : txAt s.chainLength (k + 1) = .idle := txAt_done (Nat.not_lt.mp hlast)
    rw [show k + 1 = 48 * s.slots.length + 2 by unfold State.chainLength at hk hlast; omega, burstEvents_take_all] at htrace'
    refine (traceIsBursts_rest (.inl hdone)).mpr ⟨images ++ [s.slots], ?_, ?_⟩
    · intro m hm
      obtain hm | hm := List.mem_append.mp hm
      · exact hlen m hm
      · rw [List.mem_singleton.mp hm]; rfl
    · rw [htrace', List.flatMap_append, List.flatMap_singleton]

/-- Settles O38: a burst grows by its own next event; between bursts the buffer may change, since no event of the next burst
is out yet; a reset begins with no event. -/
theorem stepKeepsTheTraceWholeBursts : Obligations.StepKeepsTheTraceWholeBursts := by
  intro s t hI hT h
  obtain ⟨-, ⟨-, rfl⟩ | ⟨hr, ht, -⟩ | ⟨-, -, -, rfl⟩ | ⟨-, ht, w, ws, i, -, -, rfl⟩⟩ := step_cases h
  · exact ⟨[], fun _ hm => absurd hm List.not_mem_nil, rfl⟩
  · obtain ⟨k, e, hk, hx, he, hstep⟩ := hI.burstStep ht hr
    rw [hstep] at h
    cases h
    exact hT.afterEvent hk hx he
  · exact hT
  · exact TraceIsBursts.accepted (s := s.takingWord ws) hT ht i

/-! ### The pins and the trace -/

/-- An event is recorded with the assignment it is. -/
theorem PinsFollowTrace.emit {s t : State} {e : PinEvent} (h : PinsFollowTrace s) (hp : t.pins = s.pins.assign e)
    (ht : t.trace = s.trace ++ [e]) : PinsFollowTrace t := by
  unfold PinsFollowTrace Pins.assignAll at h ⊢
  rw [hp, ht, List.foldl_append, ← h]; rfl

/-- Settles O39: only the sequencer moves a pin, and it records the event. -/
theorem stepKeepsPinsWhereTheTraceLeftThem : Obligations.StepKeepsPinsWhereTheTraceLeftThem := by
  intro s t hP h
  obtain ⟨-, ⟨-, rfl⟩ | ⟨-, ht, hq⟩ | ⟨-, -, -, rfl⟩ | ⟨-, -, w, ws, i, -, -, rfl⟩⟩ := step_cases h
  · exact rfl
  · obtain ⟨e, hpins, htrace⟩ := sequencerStep_event (s := s.sampled) ht hq
    exact PinsFollowTrace.emit (s := s.sampled) hP hpins htrace
  · exact hP
  · show (accepted i (s.takingWord ws)).pins = restPins.assignAll (accepted i (s.takingWord ws)).trace
    rw [accepted_pins, accepted_trace]
    exact hP

/-- Settles O36: the base case of O37, O38 and O39. -/
theorem invariantsHoldAfterReset : Obligations.InvariantsHoldAfterReset := fun _ hn =>
  ⟨⟨initial_wf hn, rfl, rfl⟩, ⟨[], fun _ hm => absurd hm List.not_mem_nil, rfl⟩, rfl⟩

end Sys2Proof.Machine
end

section
/-! A burst as the spec draws it (R90, R92): its shape, where it leaves the pins, and STREAM as one number (R34). -/

namespace Sys2Proof.Machine

/-! ### The shape of a burst -/

/-- Each bit has one rising and one falling clock event. -/
theorem countP_bitsEvents_clk (bs : List Level) (b : Level) :
    (bs.flatMap bitEvents).countP (fun e => e == ⟨.clk, b⟩) = bs.length := by
  have hone (a : Level) : (bitEvents a).countP (fun e => e == ⟨.clk, b⟩) = 1 := by cases a <;> cases b <;> rfl
  induction bs with
  | nil => rfl
  | cons a bs ih => rw [List.flatMap_cons, List.countP_append, hone, ih, List.length_cons, Nat.add_comm]

theorem countP_burstEvents_clk (m : Memory) (b : Level) :
    (burstEvents m).countP (fun e => e == ⟨.clk, b⟩) = 16 * m.length := by
  simp [burstEvents, countP_bitsEvents_clk, streamBits_length]

theorem cellRead_eq_some_iff {m : Memory} {c : Nat} {b : Level} :
    cellRead m c = some b ↔ ∃ f, m[c / 16]? = some f ∧ f.getLsbD (15 - c % 16) = b := by
  simp [cellRead]

/-- Settles O40: every stream time index has a bit of a slot, and each bit its three events. -/
theorem burstHasTheShapeOfTheSpec : Obligations.BurstHasTheShapeOfTheSpec := by
  intro m
  refine ⟨burstEvents_length m, burstEvents_first m, burstEvents_last m, fun t ht => ?_,
    countP_burstEvents_clk m true, countP_burstEvents_clk m false⟩
  obtain ⟨b, hb⟩ := cellRead_eq_some ht
  obtain ⟨f, hf, rfl⟩ := cellRead_eq_some_iff.mp hb
  exact ⟨f, hf, burstEvents_bit hb⟩

/-! ### The pins after a burst -/

theorem assignAll_append (p : Pins) (es fs : List PinEvent) :
    p.assignAll (es ++ fs) = (p.assignAll es).assignAll fs := List.foldl_append

/-- Sending bits leaves `DATA` at the last of them, and `CLK` low. -/
theorem assignAll_bitsEvents {bs : List Level} {b : Level} (h : bs.getLast? = some b) (p : Pins) :
    p.assignAll (bs.flatMap bitEvents) = { p with clk := false, data := b } := by
  induction bs generalizing p with
  | nil => cases h
  | cons a bs ih =>
    cases bs with
    | nil => cases h; rfl
    | cons c cs =>
      rw [List.flatMap_cons, assignAll_append, ih (by rwa [List.getLast?_cons_cons] at h)]
      rfl

/-- The last bit sent is bit 0 of the last slot (R35). -/
theorem streamBits_getLast? {m : Memory} (h : 1 ≤ m.length) :
    ∃ b, (streamBits m).getLast? = some b ∧ m[m.length - 1]?.map (fun f => f.getLsbD 0) = some b := by
  obtain ⟨b, hb⟩ := cellRead_eq_some (m := m) (c := 16 * m.length - 1) (by omega)
  refine ⟨b, ?_, ?_⟩
  · rw [List.getLast?_eq_getElem?, streamBits_length, streamBits_getElem?, hb]
  · rw [← hb, cellRead, show (16 * m.length - 1) / 16 = m.length - 1 by omega,
      show 15 - (16 * m.length - 1) % 16 = 0 by omega]

theorem assignAll_burstEvents {m : Memory} {b : Level} (h : (streamBits m).getLast? = some b) (p : Pins) :
    p.assignAll (burstEvents m) = { cs := true, clk := false, data := b } := by
  rw [burstEvents, assignAll_append, ← List.singleton_append, assignAll_append, assignAll_bitsEvents h]
  rfl

/-! ### STREAM -/

theorem foldl_stream (acc : Nat) (m : Memory) :
    m.foldl (fun acc f => acc * 2 ^ 16 + f.toNat) acc = acc * 2 ^ (16 * m.length) + streamNumber m := by
  induction m generalizing acc with
  | nil => simp [streamNumber]
  | cons f m ih =>
    rw [streamNumber, List.foldl_cons, List.foldl_cons, ih, ih (0 * 2 ^ 16 + f.toNat), List.length_cons, Nat.mul_add,
      Nat.pow_add]
    ring

/-- STREAM of one more slot in front: the new slot is the most significant (R34). -/
theorem streamNumber_cons (f : Frame) (m : Memory) :
    streamNumber (f :: m) = f.toNat * 2 ^ (16 * m.length) + streamNumber m := by
  rw [streamNumber, List.foldl_cons, foldl_stream, Nat.zero_mul, Nat.zero_add]

theorem streamNumber_lt (m : Memory) : streamNumber m < 2 ^ (16 * m.length) := by
  induction m with
  | nil => exact Nat.one_pos
  | cons f m ih =>
    rw [streamNumber_cons, List.length_cons, Nat.mul_add, Nat.add_comm (16 * _), Nat.pow_add]
    calc f.toNat * 2 ^ (16 * m.length) + streamNumber m
        < (f.toNat + 1) * 2 ^ (16 * m.length) := by rw [Nat.succ_mul f.toNat]; exact Nat.add_lt_add_left ih _
      _ ≤ 2 ^ 16 * 2 ^ (16 * m.length) := Nat.mul_le_mul_right _ f.isLt

/-- A slot is its 16 bits of STREAM (R34). -/
theorem slot_eq_streamNumber {m : Memory} {j : Nat} (hj : j < m.length) :
    m[j]? = some (BitVec.ofNat 16 (streamNumber m / 2 ^ (16 * (m.length - 1 - j)))) := by
  induction m generalizing j with
  | nil => exact absurd hj (Nat.not_lt_zero j)
  | cons f m ih =>
    rw [streamNumber_cons]
    cases j with
    | zero =>
      have hf : (f.toNat * 2 ^ (16 * m.length) + streamNumber m) / 2 ^ (16 * m.length) = f.toNat := by
        rw [Nat.mul_comm, Nat.mul_add_div (Nat.two_pow_pos _), Nat.div_eq_of_lt (streamNumber_lt m), Nat.add_zero]
      rw [List.length_cons, Nat.add_sub_cancel, Nat.sub_zero, hf, BitVec.ofNat_toNat, BitVec.setWidth_eq]
      rfl
    | succ j =>
      have hj : j < m.length := Nat.lt_of_succ_lt_succ hj
      have hhigh : f.toNat * 2 ^ (16 * m.length) =
          2 ^ (16 * (m.length - 1 - j)) * (2 ^ 16 * (f.toNat * 2 ^ (16 * j))) := by
        rw [show 16 * m.length = 16 * (m.length - 1 - j) + 16 + 16 * j by omega, Nat.pow_add, Nat.pow_add]
        ring
      rw [List.getElem?_cons_succ, ih hj, List.length_cons, show m.length + 1 - 1 - (j + 1) = m.length - 1 - j by omega,
        hhigh, Nat.mul_add_div (Nat.two_pow_pos _)]
      refine congrArg some (BitVec.eq_of_toNat_eq ?_)
      rw [BitVec.toNat_ofNat, BitVec.toNat_ofNat, Nat.mul_add_mod]

/-- Settles O41: a cell is a bit of its slot, and the slot is 16 bits of STREAM. -/
theorem streamIsTheSlotsConcatenated : Obligations.StreamIsTheSlotsConcatenated := by
  intro m
  refine ⟨fun c hc => ?_, fun a h1 hN => ?_⟩
  · have hbit : 16 * (m.length - 1 - c / 16) + (15 - c % 16) = 16 * m.length - 1 - c := by omega
    rw [cellRead, slot_eq_streamNumber (by omega), Option.map_some, BitVec.getLsbD_ofNat, Nat.testBit_div_two_pow,
      Nat.add_comm, hbit, decide_eq_true (by omega), Bool.true_and]
  · rw [slot_eq_streamNumber (by omega), show m.length - 1 - (a - 1) = m.length - a by omega]

end Sys2Proof.Machine
end

section
/-! What each operation does when it is given in `Idle`, and when it is not (R70, R80, R90, R99, R103, R110). -/

namespace Sys2Proof.Machine

/-- Settles O8: the meaning of ENCODE. -/
theorem encodeShowsItsFrameAndNothingElse : Obligations.EncodeShowsItsFrameAndNothingElse := fun _ _ _ => rfl

/-- Settles O9: NOP is accepted in `Idle`, and its acceptance is its response. -/
theorem nopRespondsOkAndNothingElse : Obligations.NopRespondsOkAndNothingElse := fun _ ht => exec_idle .nop ht

/-- Settles O16: every command asks for READY, and ENCODE is none. -/
theorem commandWithoutReadyHasNoStep : Obligations.CommandWithoutReadyHasNoStep := by
  intro i s ht hi
  cases i with
  | encode reg data => exact absurd rfl (hi reg data)
  | _ => exact whenReady_busy ht _

/-! ### LOAD -/

theorem install_slotInstalled {dev : Nat} {s : State} (h : validDev s.chainLength dev = true) (reg : RegAddr)
    (data : DataByte) : SlotInstalled dev reg data s (install dev reg data s) :=
  ⟨install_chainLength dev reg data s, List.getElem?_set_self (slotIndex_lt h),
    fun _ hj => List.getElem?_set_ne (Ne.symm hj)⟩

/-- A LOAD to a device of the chain, given in `Idle`. -/
theorem exec_load {dev : Nat} {s : State} (ht : s.tx = .idle) (h1 : 1 ≤ dev) (hN : dev ≤ s.chainLength) (reg : RegAddr)
    (data : DataByte) : exec (.load dev reg data) s = .next (respond .ok (install dev reg data s)) :=
  (exec_idle _ ht).trans (congrArg _ (acceptLoad_valid (validDev_iff.mpr ⟨h1, hN⟩) reg data))

/-- Settles O10: the LOAD is an install and its response. -/
theorem loadInstallsExactlyOneSlot : Obligations.LoadInstallsExactlyOneSlot := by
  intro dev reg data s ht h1 hN
  exact ⟨_, exec_load ht h1 hN reg data, install_slotInstalled (validDev_iff.mpr ⟨h1, hN⟩) reg data,
    rfl, ht, rfl, rfl, rfl, rfl, rfl⟩

/-- Settles O17: the second install overwrites the first. -/
theorem lastInstallForADeviceWins : Obligations.LastInstallForADeviceWins := by
  intro dev reg₁ reg₂ data₁ data₂ s ht h1 hN
  have hN' : dev ≤ (respond .ok (install dev reg₁ data₁ s)).chainLength := by simpa using hN
  have hslots : (install dev reg₂ data₂ (respond .ok (install dev reg₁ data₁ s))).slots =
      (install dev reg₂ data₂ s).slots := List.set_set _
  obtain ⟨-, hslot, -⟩ := install_slotInstalled (validDev_iff.mpr ⟨h1, hN⟩) reg₂ data₂
  exact ⟨_, _, _, exec_load ht h1 hN reg₁ data₁,
    exec_load (s := respond .ok (install dev reg₁ data₁ s)) ht h1 hN' reg₂ data₂, exec_load ht h1 hN reg₂ data₂, hslots,
    (congrArg (·[dev - 1]?) hslots).trans hslot⟩

/-! ### SEND and the writes -/

/-- From the beginning of a burst, if no reset comes, the whole burst runs. -/
theorem burstRuns {t : State} (hn : 1 ≤ t.chainLength) (ht : t.tx = .latchLow)
    (hr : NoResetFor (burstSteps t.chainLength) t) : BurstRuns t := by
  obtain ⟨b, hlast, hslot⟩ := streamBits_getLast? hn
  have hpins := assignAll_burstEvents hlast t.pins
  refine ⟨fun k hk => ?_, _, (steps_inBurst hn ht (Nat.le_refl _) hr).trans (congrArg _ (inBurst_done rfl)), rfl, rfl,
    congrArg Pins.cs hpins, congrArg Pins.clk hpins, hslot.trans (congrArg (some ·.data) hpins.symm),
    rfl, rfl, rfl, rfl, rfl, rfl⟩
  exact ⟨_, steps_inBurst hn ht (Nat.le_of_lt hk) (hr.mono (Nat.le_of_lt hk)), txAt_ne_idle hk, rfl, rfl,
    if_neg (Nat.not_le.mpr hk), rfl⟩

/-- Settles O12: accepting SEND begins the burst. -/
theorem sendTransmitsTheWholeBuffer : Obligations.SendTransmitsTheWholeBuffer := fun s hn ht =>
  ⟨exec_idle .send ht, fun hr => burstRuns (t := { s with tx := .latchLow }) hn rfl hr⟩

/-- A write to a device of the chain, given in `Idle`, installs and begins the burst of the buffer with the new frame. -/
theorem writeEffect {i : Instr} {dev : Nat} {reg : RegAddr} {data : DataByte} {s : State}
    (hw : writeOperands i = some (dev, reg, data)) (ht : s.tx = .idle) (h1 : 1 ≤ dev) (hN : dev ≤ s.chainLength) :
    WriteEffect i dev reg data s := by
  have hv : validDev s.chainLength dev = true := validDev_iff.mpr ⟨h1, hN⟩
  have hacc : accepted i s = setTx .latchLow (install dev reg data s) := by
    rw [accepted_of_writeOperands hw, acceptWrite_valid hv]
  have hlen : (setTx .latchLow (install dev reg data s)).chainLength = s.chainLength := install_chainLength dev reg data s
  exact ⟨_, (exec_idle i ht).trans (congrArg _ hacc), install_slotInstalled hv reg data, rfl, rfl, rfl, rfl, rfl, rfl, rfl,
    fun hr => burstRuns (hlen ▸ h1.trans hN) rfl (hlen ▸ hr)⟩

/-- WRITE and the named writes, each with its operands: what O13 to O15 say of one instruction after the other. -/
theorem isWriteOf {i : Instr} {dev : Nat} {reg : RegAddr} {data : DataByte}
    (hw : writeOperands i = some (dev, reg, data)) : IsWriteOf i dev reg data := by
  refine ⟨encode_of_writeOperands hw, fun s => ?_, fun s => writeEffect hw, fun s => ?_⟩
  · rw [exec_of_writeOperands hw, exec_of_writeOperands (i := .write dev reg data) rfl]
  · exact invalidDeviceIsRejectedWithoutEffect i dev reg data s (installOperands_of_writeOperands hw)

/-- Settles O13: WRITE is a write with its own operands. -/
theorem writeInstallsAndTransmits : Obligations.WriteInstallsAndTransmits := fun _ _ _ => isWriteOf rfl

/-- Settles O14: each of the three is a write, and its frame is 256 times its register address plus the data. -/
theorem sourcedNamedWritesAreWrites : Obligations.SourcedNamedWritesAreWrites := fun _ data =>
  ⟨isWriteOf rfl, toNat_encodeFrame 0x1#4 data, isWriteOf rfl, toNat_encodeFrame 0xA#4 data,
    isWriteOf rfl, toNat_encodeFrame 0xC#4 data⟩

/-- Settles O15: each of the eleven is a write. -/
theorem otherNamedWritesAreWrites : Obligations.OtherNamedWritesAreWrites := fun _ _ =>
  ⟨isWriteOf rfl, isWriteOf rfl, isWriteOf rfl, isWriteOf rfl, isWriteOf rfl, isWriteOf rfl, isWriteOf rfl, isWriteOf rfl,
    isWriteOf rfl, isWriteOf rfl, isWriteOf rfl⟩

/-- The bit cells of a device's slot, in the order sent (R33). -/
theorem cellRead_of_slot {m : Memory} {a j : Nat} {f : Frame} (h : m[a]? = some f) (hj : j < 16) :
    cellRead m (16 * a + j) = some (f.getLsbD (15 - j)) := by
  rw [cellRead, show (16 * a + j) / 16 = a by omega, show (16 * a + j) % 16 = j by omega, h]
  rfl

/-- Settles O43: the write's burst is of the buffer with its frame, whose bits stand at the places of their cells. -/
theorem writeIsReflectedInItsOwnBurst : Obligations.WriteIsReflectedInItsOwnBurst := by
  intro i dev reg data s hw ht h1 hN hr
  obtain ⟨t, hexec, ⟨hlen, hslot, -⟩, -, -, -, -, htrace, -, -, hburst⟩ := writeEffect hw ht h1 hN
  obtain ⟨-, u, hsteps, hidle, -, -, -, -, hutrace, -⟩ := hburst hr
  rw [hlen] at hsteps
  refine ⟨t, u, hexec, hsteps, hidle, fun j hj => ?_⟩
  rw [hutrace, htrace, List.getElem?_append_right (by omega), Nat.add_assoc, Nat.add_sub_cancel_left]
  exact (burstEvents_bit (cellRead_of_slot hslot hj)).1

end Sys2Proof.Machine
end

section
/-! What one step does (R94 to R100), what it shows (R70), and what it takes from the port (R15, R99). -/

namespace Sys2Proof.Machine

/-! ### The acceptance of a word, and two steps of the sequencer -/

/-- Settles O19: `step_accept`. -/
theorem stepRunsTheDecodedInstruction : Obligations.StepRunsTheDecodedInstruction :=
  fun _ _ _ _ hn hr ht hp hd => step_accept hn hr ht hp hd

theorem sequencerStep_present {s : State} {k : Nat} {b : Level} (h : s.tx = .shift k .present)
    (hb : cellRead s.slots k = some b) :
    sequencerStep s = .next (setTx (.shift k .clkHigh) (emit .data b s)) := by
  simp only [sequencerStep, h, presentStep, hb]

theorem sequencerStep_latchHigh {s : State} (h : s.tx = .latchHigh) : sequencerStep s = .next (latchHighStep s) := by
  simp only [sequencerStep, h]

/-- Settles O21: the counter is in range, so the bit multiplexer reads a bit of a slot. -/
theorem presentStepDrivesTheStreamBit : Obligations.PresentStepDrivesTheStreamBit := by
  intro s k hk hr ht
  obtain ⟨b, hb⟩ := cellRead_eq_some hk
  obtain ⟨f, hf, rfl⟩ := cellRead_eq_some_iff.mp hb
  have hstep := (step_sequence (by omega) hr (by simp [ht])).trans (sequencerStep_present (s := s.sampled) ht hb)
  exact ⟨f, _, hf, hstep, rfl, rfl, rfl, rfl, rfl, rfl, rfl⟩

/-- Settles O24: the step is `latchHighStep` of the sampled state. -/
theorem latchHighStepRaisesCsAndResponds : Obligations.LatchHighStepRaisesCsAndResponds := by
  intro s hn hr ht
  have hstep := (step_sequence hn hr (by simp [ht])).trans (sequencerStep_latchHigh (s := s.sampled) ht)
  exact ⟨_, hstep, rfl, rfl, rfl, rfl, rfl, rfl, rfl⟩

/-! ### The reset sample and the frame shown -/

theorem step_rst {s t : State} (h : step s = .next t) : t.rst = s.rst.tail := by
  obtain ⟨-, ⟨-, rfl⟩ | ⟨-, ht, hq⟩ | ⟨-, -, -, rfl⟩ | ⟨-, -, w, ws, i, -, -, rfl⟩⟩ := step_cases h
  · rfl
  · obtain ⟨-, -, hrst, -⟩ := sequencerStep_frame (s := s.sampled) ht hq
    exact hrst
  · rfl
  · exact accepted_rst i _

theorem sequencerStep_frameOut {s t : State} (ht : s.tx ≠ .idle) (h : sequencerStep s = .next t) :
    t.frameOut = s.frameOut := by
  rcases sequencerStep_cases ht h with ⟨_, rfl⟩ | ⟨_, _, _, _, rfl⟩ | ⟨_, _, rfl⟩ | ⟨_, _, rfl⟩ | ⟨_, rfl⟩ <;> rfl

/-- Accepting an install for a device of the chain shows its frame. -/
theorem accepted_frameOut_of_valid {i : Instr} {dev : Nat} {reg : RegAddr} {data : DataByte} {s : State}
    (hi : installOperands i = some (dev, reg, data)) (hv : validDev s.chainLength dev = true) :
    (accepted i s).frameOut = some (encodeFrame reg data) := by
  obtain rfl | hw := installOperands_cases hi
  · exact congrArg State.frameOut (acceptLoad_valid hv reg data)
  · rw [accepted_of_writeOperands hw, acceptWrite_valid hv]; rfl

/-- A frame that an acceptance shows is that of an ENCODE or of an install for a device of the chain. -/
theorem accepted_shows {i : Instr} {s : State} {f : Frame} (hs : s.frameOut = none)
    (hf : (accepted i s).frameOut = some f) :
    ∃ reg data, f = encodeFrame reg data ∧
      (i = .encode reg data ∨
        ∃ dev, installOperands i = some (dev, reg, data) ∧ validDev s.chainLength dev = true) := by
  cases hi : installOperands i with
  | some a =>
    obtain ⟨dev, reg, data⟩ := a
    cases hv : validDev s.chainLength dev with
    | true =>
      rw [accepted_frameOut_of_valid hi hv] at hf
      exact ⟨reg, data, (Option.some.inj hf).symm, .inr ⟨dev, rfl, hv⟩⟩
    | false =>
      rw [accepted_invalid hi hv, raiseError_frameOut, hs] at hf
      cases hf
  | none =>
    cases i with
    | encode reg data => exact ⟨reg, data, (Option.some.inj hf).symm, .inl rfl⟩
    | nop | send => exact absurd (hs.symm.trans hf) nofun
    | _ => cases hi

/-- A step that shows a frame ran an ENCODE, or an install for a device of the chain (R19, R70). -/
theorem step_shows {s t : State} {f : Frame} (h : step s = .next t) (hf : t.frameOut = some f) :
    s.rstNow = false ∧ s.tx = .idle ∧ ∃ w ws i reg data, s.port = w :: ws ∧ decode w = .ok i ∧ f = encodeFrame reg data ∧
      (i = .encode reg data ∨
        ∃ dev, installOperands i = some (dev, reg, data) ∧ validDev s.chainLength dev = true) := by
  obtain ⟨-, ⟨-, rfl⟩ | ⟨-, ht, hq⟩ | ⟨-, -, -, rfl⟩ | ⟨hr, ht, w, ws, i, hp, hd, rfl⟩⟩ := step_cases h
  · cases hf
  · rw [sequencerStep_frameOut (s := s.sampled) ht hq] at hf; cases hf
  · cases hf
  · obtain ⟨reg, data, hframe, hran⟩ := accepted_shows (s := s.takingWord ws) rfl hf
    exact ⟨hr, ht, w, ws, i, reg, data, hp, hd, hframe, hran⟩

/-- A next state of an instruction other than ENCODE is that of its acceptance in `Idle`. -/
theorem exec_eq_next {i : Instr} {s t : State} (h : exec i s = .next t) (hi : ∀ reg data, i ≠ .encode reg data) :
    t = accepted i s := by
  by_cases ht : s.tx = .idle
  · rw [exec_idle i ht] at h; cases h; rfl
  · rw [commandWithoutReadyHasNoStep i s ht hi] at h; cases h

/-- Settles O25: the second clause is the first read backwards, for instructions of which it has neither kind. -/
theorem everyStepTakesOneSampleAndShowsNoOldFrame : Obligations.EveryStepTakesOneSampleAndShowsNoOldFrame := by
  refine ⟨fun s t h => ⟨step_rst h, fun f hf => ?_⟩, fun s t w ws i h hp hd hi => ?_,
    fun i dev reg data s t hi h1 hN h => ?_⟩
  · obtain ⟨hr, ht, w, ws, i, reg, data, hp, hd, hframe, hran⟩ := step_shows h hf
    simp only [validDev_iff] at hran
    exact ⟨hr, ht, w, ws, i, reg, data, hp, hd, hframe, hran⟩
  · cases hf : t.frameOut with
    | none => rfl
    | some f =>
      obtain ⟨-, -, w', ws', i', reg, data, hp', hd', -, hran⟩ := step_shows h hf
      obtain ⟨rfl, rfl⟩ := List.cons.inj (hp.symm.trans hp')
      obtain rfl := Except.ok.inj (hd.symm.trans hd')
      obtain rfl | rfl | ⟨dev, reg', data', hops, hdev⟩ := hi
      · obtain he | ⟨_, hops, -⟩ := hran <;> contradiction
      · obtain he | ⟨_, hops, -⟩ := hran <;> contradiction
      · obtain rfl | ⟨dev', hops', hv⟩ := hran
        · cases hops
        · obtain ⟨rfl, -⟩ := Prod.mk.inj (Option.some.inj (hops.symm.trans hops'))
          rw [validDev_false_iff.mpr hdev] at hv; cases hv
  · obtain rfl := exec_eq_next h (by rintro _ _ rfl; cases hi)
    exact ⟨accepted_frameOut_of_valid hi (validDev_iff.mpr ⟨h1, hN⟩), accepted_rst i s⟩

/-! ### Progress -/

theorem decode_eq_error {w : EncodedWord} {e : DecodeError} (h : decode w = .error e) :
    ∃ f, w = .frame16 f ∧ 0x1000 ≤ f.toNat := by
  cases w with
  | command cw => cases h
  | frame16 f =>
    refine ⟨f, rfl, Nat.le_of_not_lt fun hf => ?_⟩
    obtain ⟨_, _, hd, -⟩ := decode_frame16_of_lt hf
    rw [hd] at h; cases h

/-- Settles O26: of the situations of a step, a state of the block is never without slots, and only the word that does not
decode is refused. -/
theorem blockAlwaysHasAStep : Obligations.BlockAlwaysHasAStep := by
  intro s hI
  obtain h0 | ⟨hn, hr | ⟨hr, ht | ⟨ht, hp | ⟨w, ws, hp, ⟨i, hd⟩ | ⟨e, hd⟩⟩⟩⟩⟩ := situation_cases s
  · exact absurd h0 (slots_ne_nil hI.chainLength_pos)
  · exact .inl ⟨_, step_reset hn hr⟩
  · obtain ⟨_, _, -, -, -, hstep⟩ := hI.burstStep ht hr
    exact .inl ⟨_, hstep⟩
  · exact .inl ⟨_, step_wait hn hr ht hp⟩
  · exact .inl ⟨_, (step_accept hn hr ht hp hd).trans (exec_idle (s := s.takingWord ws) i ht)⟩
  · obtain ⟨f, rfl, hf⟩ := decode_eq_error hd
    exact .inr ⟨hr, ht, f, ws, hp, hf, step_reject hn hr ht hp hd⟩

/-- Settles O27: the step is `afterEvent` at a position of the burst, and only the last position answers and goes to
`Idle`. -/
theorem burstStepTakesNoCommand : Obligations.BurstStepTakesNoCommand := by
  intro s hI ht hr
  obtain ⟨k, e, hk, hx, -, hstep⟩ := hI.burstStep ht hr
  have htx : (afterEvent s.chainLength k e s).tx = .idle ↔ k = 48 * s.chainLength + 1 := by
    show txAt s.chainLength (k + 1) = .idle ↔ _
    refine ⟨fun hidle => ?_, fun hlast => txAt_done (by omega)⟩
    by_contra hne
    exact txAt_ne_idle (by omega) hidle
  refine ⟨_, e, hstep, rfl, rfl, rfl, fun hbusy => if_neg (hbusy ∘ htx.mpr), fun hidle => ?_⟩
  have hlast := htx.mp hidle
  exact ⟨by rw [hx, hlast, txAt_last], if_pos hlast⟩

/-! ### What a step leaves alone -/

/-- Settles O28: only an acceptance touches the port, and it takes the first word. -/
theorem wordsAreTakenOnlyWhenReady : Obligations.WordsAreTakenOnlyWhenReady := by
  intro s t h hne
  obtain ⟨-, ⟨-, rfl⟩ | ⟨-, ht, hq⟩ | ⟨-, -, -, rfl⟩ | ⟨hr, ht, w, ws, i, hp, -, rfl⟩⟩ := step_cases h
  · exact absurd rfl hne
  · obtain ⟨-, hport, -⟩ := sequencerStep_frame (s := s.sampled) ht hq
    exact absurd hport hne
  · exact absurd rfl hne
  · exact ⟨by simp [State.ready, ht, hr], w, by rw [accepted_port]; exact hp⟩

/-- Settles O30: of the steps without reset only `Present` drives `DATA`, and `CLK` is low there and stays so. -/
theorem dataChangesOnlyWhileClkIsLow : Obligations.DataChangesOnlyWhileClkIsLow := by
  intro s t hI h hr hne
  obtain ⟨-, ⟨hr', -⟩ | ⟨-, ht, hq⟩ | ⟨-, -, -, rfl⟩ | ⟨-, -, w, ws, i, -, -, rfl⟩⟩ := step_cases h
  · rw [hr] at hr'; cases hr'
  · rcases sequencerStep_cases (s := s.sampled) ht hq with
      ⟨_, rfl⟩ | ⟨k, b, hx, _, rfl⟩ | ⟨_, _, rfl⟩ | ⟨_, _, rfl⟩ | ⟨_, rfl⟩
    case inr.inl =>
      obtain ⟨-, -, hclk⟩ := (sequencerOk_present hx).mp hI.sampled.sequencer
      exact ⟨hclk, hclk⟩
    all_goals exact absurd rfl hne
  · exact absurd rfl hne
  · exact absurd (congrArg Pins.data (accepted_pins i (s.takingWord ws))) hne

/-- A step of the sequencer answers nothing, or OK (R100, R141). -/
theorem sequencerStep_responses {s t : State} (ht : s.tx ≠ .idle) (h : sequencerStep s = .next t) :
    t.responses = s.responses ∨ t.responses = s.responses ++ [.ok] := by
  rcases sequencerStep_cases ht h with ⟨_, rfl⟩ | ⟨_, _, _, _, rfl⟩ | ⟨_, _, rfl⟩ | ⟨_, _, rfl⟩ | ⟨_, rfl⟩
  case inr.inr.inr.inr => exact .inr rfl
  all_goals exact .inl rfl

/-- Settles O31: the sequencer answers OK only, and an acceptance what `responsesOf` says. -/
theorem runningBlockNeverRespondsConfigurationError : Obligations.RunningBlockNeverRespondsConfigurationError := by
  intro s t h hs
  obtain ⟨-, ⟨-, rfl⟩ | ⟨-, ht, hq⟩ | ⟨-, -, -, rfl⟩ | ⟨-, -, w, ws, i, -, -, rfl⟩⟩ := step_cases h
  · exact List.not_mem_nil
  · obtain hresp | hresp := sequencerStep_responses (s := s.sampled) ht hq <;> rw [hresp]
    · exact hs
    · simpa using hs
  · exact hs
  · rw [accepted_responses, List.mem_append, takingWord_responses]
    rintro (hold | hnew)
    · exact hs hold
    · split at hnew
      · exact List.not_mem_nil hnew
      · exact configurationError_not_mem_responsesOf _ i hnew

end Sys2Proof.Machine
end

section
/-! Construction and reset (R20, R142, R160 to R162). -/

namespace Sys2Proof.Machine

/-- Settles O32: the fields of the reset state. -/
theorem resetStateHoldsTheResetValues : Obligations.ResetStateHoldsTheResetValues :=
  ⟨rfl, fun _ hf => List.eq_of_mem_replicate hf, rfl, rfl, rfl, rfl, rfl, rfl, rfl, rfl⟩

/-- Settles O33: construction is `State.initial` but for `n = 0`, and the step agrees (`step_noBlock`). -/
theorem constructionRefusesAnEmptyChain : Obligations.ConstructionRefusesAnEmptyChain :=
  ⟨rfl, fun _ => step_noBlock, fun n hn => ⟨State.initial n, if_neg (Nat.ne_of_gt hn), List.length_replicate,
    fun _ hi => List.getElem?_replicate_of_lt hi, rfl, rfl, rfl, rfl, rfl⟩⟩

/-- Settles O34: the step is `applyReset` of the sampled state. -/
theorem resetFiresInEveryState : Obligations.ResetFiresInEveryState := fun s hn hr =>
  ⟨_, step_reset hn hr, rfl, rfl, rfl, rfl, rfl, rfl, rfl, rfl, by simp [State.ready, hr]⟩

/-! ### The level changes of a reset -/

/-- One level change for each pin that is not at its rest level, and no other. -/
theorem mem_resetEvents (p : Pins) (b : Level) :
    (⟨.clk, b⟩ ∈ resetEvents p ↔ p.clk = true ∧ b = false) ∧ (⟨.data, b⟩ ∈ resetEvents p ↔ p.data = true ∧ b = false) ∧
    (⟨.cs, b⟩ ∈ resetEvents p ↔ p.cs = false ∧ b = true) := by
  obtain ⟨cs, clk, data⟩ := p
  revert cs clk data b
  decide

theorem resetEvents_nodup (p : Pins) : (resetEvents p).Nodup := by
  obtain ⟨cs, clk, data⟩ := p
  revert cs clk data
  decide

theorem assignAll_resetEvents (p : Pins) : p.assignAll (resetEvents p) = restPins := by
  obtain ⟨cs, clk, data⟩ := p
  revert cs clk data
  decide

/-- `CS`, where it was low, rises last. -/
theorem resetEvents_getLast? {p : Pins} (h : p.cs = false) : (resetEvents p).getLast? = some ⟨.cs, true⟩ := by
  simp [resetEvents, h, restPins]

/-- What a reset adds to `past`: the record it ends, unless nothing is in it (log entry 7). -/
theorem pastAtReset_eq (s : State) :
    (s.trace ++ resetEvents s.pins = [] ∧ s.responses = [] → s.pastAtReset = s.past) ∧
    (¬ (s.trace ++ resetEvents s.pins = [] ∧ s.responses = []) → s.pastAtReset = s.past ++ [s.endedEpoch]) := by
  have hempty : s.endedEpoch = { trace := [], responses := [] } ↔
      s.trace ++ resetEvents s.pins = [] ∧ s.responses = [] := by
    rw [State.endedEpoch, Epoch.mk.injEq]
  rw [← hempty]
  exact ⟨fun h => if_pos h, fun h => if_neg h⟩

/-- Settles O35: the record that a reset ends, and the level changes at its end. -/
theorem resetEndsTheTrace : Obligations.ResetEndsTheTrace := by
  intro s hn hr
  obtain ⟨hnothing, hrecord⟩ := pastAtReset_eq s
  exact ⟨_, resetEvents s.pins, step_reset hn hr, hnothing, hrecord, resetEvents_nodup s.pins, mem_resetEvents s.pins,
    assignAll_resetEvents s.pins, resetEvents_getLast?⟩

end Sys2Proof.Machine
end

section
/-! No step reads the records (R16, R18, R19), so a rejected command leaves no mark (R145); and what the host sees depends on
no slot and no pin (R5, R132). -/

namespace Sys2Proof.Machine

/-! ### The records -/

/-- A step without reset appends to the records and does not read them. -/
theorem step_afterRecordsOf (r : State) {s : State} (hr : s.rstNow = false) :
    step (State.afterRecordsOf r s) = seen (State.afterRecordsOf r) (step s) := by
  obtain h0 | ⟨hn, hr' | ⟨-, ht | ⟨ht, hp | ⟨w, ws, hp, ⟨i, hd⟩ | ⟨e, hd⟩⟩⟩⟩⟩ := situation_cases s
  · rw [step_noBlock h0, step_noBlock (s := State.afterRecordsOf r s) h0]; rfl
  · rw [hr] at hr'; cases hr'
  · rw [step_sequence hn hr ht, step_sequence (s := State.afterRecordsOf r s) hn hr ht, afterRecordsOf_sampled,
      sequencerStep_afterRecordsOf]
  · rw [step_wait hn hr ht hp, step_wait (s := State.afterRecordsOf r s) hn hr ht hp]; rfl
  · rw [step_accept hn hr ht hp hd, step_accept (s := State.afterRecordsOf r s) hn hr ht hp hd, afterRecordsOf_takingWord,
      exec_idle i (s := s.takingWord ws) ht, exec_idle i (s := State.afterRecordsOf r (s.takingWord ws)) ht,
      accepted_afterRecordsOf]
    rfl
  · rw [step_reject hn hr ht hp hd, step_reject (s := State.afterRecordsOf r s) hn hr ht hp hd]; rfl

/-- A step does not read the frame shown in the step before. -/
theorem step_hideFrame (s : State) : step (hideFrame s) = step s := rfl

/-- The hardware with its records put back, but for the frame shown, which no step reads. -/
theorem afterRecordsOf_hardware (s : State) : State.afterRecordsOf s s.hardware = hideFrame s := by
  simp [State.afterRecordsOf, State.hardware, hideFrame]

theorem seen_hardware_afterRecordsOf (r : State) (o : Host.Outcome State Fault Refusal) :
    seen State.hardware (seen (State.afterRecordsOf r) o) = seen State.hardware o := by
  cases o <;> rfl

/-- A step acts on the hardware and the inputs alone. -/
theorem step_hardware (s : State) : seen State.hardware (step s) = seen State.hardware (step s.hardware) := by
  cases hr : s.rstNow with
  | false =>
    have hrecords : step s = seen (State.afterRecordsOf s) (step s.hardware) := by
      rw [← step_hideFrame, ← afterRecordsOf_hardware, step_afterRecordsOf s (s := s.hardware) hr]
    rw [hrecords, seen_hardware_afterRecordsOf]
  | true =>
    by_cases h0 : s.slots = []
    · rw [step_noBlock h0, step_noBlock (s := s.hardware) h0]
    · have hn : 1 ≤ s.chainLength := List.length_pos_iff.mpr h0
      rw [step_reset hn hr, step_reset (s := s.hardware) hn hr]
      rfl

/-- Settles O47: both clauses are said of one state, the first through its hardware. -/
theorem stepReadsNoGhostRecord : Obligations.StepReadsNoGhostRecord :=
  ⟨fun s s' h => by rw [step_hardware, h, ← step_hardware], fun r _ hr => step_afterRecordsOf r hr⟩

/-! ### A rejected command -/

theorem steps_afterRecordsOf (r : State) {k : Nat} {s : State} (hr : NoResetFor k s) :
    steps k (State.afterRecordsOf r s) = seen (State.afterRecordsOf r) (steps k s) := by
  induction k generalizing s with
  | zero => rfl
  | succ k ih =>
    rw [steps, steps, step_afterRecordsOf r hr.now]
    cases hstep : step s with
    | next t => exact ih (hr.tail (step_rst hstep))
    | fault => rfl
    | refused => rfl

theorem execThen_idle (i : Instr) (k : Nat) {s : State} (ht : s.tx = .idle) :
    execThen i k s = steps k (accepted i s) := by
  rw [execThen, exec_idle i ht]

/-- An operation given in `Idle`, and all that follows it without reset, does not depend on the records. -/
theorem execThen_withoutRecords (i : Instr) {k : Nat} {s : State} (ht : s.tx = .idle) (hr : NoResetFor k s) :
    execThen i k s = seen (State.afterRecordsOf s) (execThen i k s.withoutRecords) := by
  have hr' : NoResetFor k (accepted i s.withoutRecords) := by
    unfold NoResetFor
    rw [accepted_rst]
    exact hr
  calc execThen i k s
      = steps k (State.afterRecordsOf s (accepted i s.withoutRecords)) := by
        rw [execThen_idle i k ht, ← accepted_afterRecordsOf, afterRecordsOf_withoutRecords]
    _ = _ := by rw [steps_afterRecordsOf s hr', execThen_idle i k (s := s.withoutRecords) ht]

/-- Settles O18: after the rejection the state without its records is the same. -/
theorem rejectedCommandLeavesNoMark : Obligations.RejectedCommandLeavesNoMark := by
  intro i j dev reg data s hi ht hdev
  refine ⟨_, invalidDeviceIsRejectedWithoutEffect i dev reg data s hi ht hdev, rfl, rfl, rfl, rfl, rfl, fun k hr => ?_⟩
  exact ⟨execThen_withoutRecords j ht hr,
    execThen_withoutRecords j (s := { s with responses := s.responses ++ [.addressingError] }) ht hr⟩

/-! ### What the host sees -/

theorem hostView_eq_iff {s s' : State} :
    s.hostView = s'.hostView ↔
      s.chainLength = s'.chainLength ∧ s.tx = s'.tx ∧ s.port = s'.port ∧ s.rst = s'.rst ∧ s.responses = s'.responses := by
  simp only [State.hostView, Prod.mk.injEq]

theorem hostView_setTx (x : Tx) {s s' : State} (h : s.hostView = s'.hostView) :
    (setTx x s).hostView = (setTx x s').hostView := by
  obtain ⟨hn, -, hp, hrst, hresp⟩ := hostView_eq_iff.mp h
  exact hostView_eq_iff.mpr ⟨hn, rfl, hp, hrst, hresp⟩

theorem hostView_respond (c : Response) {s s' : State} (h : s.hostView = s'.hostView) :
    (respond c s).hostView = (respond c s').hostView := by
  obtain ⟨hn, ht, hp, hrst, hresp⟩ := hostView_eq_iff.mp h
  exact hostView_eq_iff.mpr ⟨hn, ht, hp, hrst, congrArg (· ++ [c]) hresp⟩

theorem hostView_takingWord (ws : List EncodedWord) {s s' : State} (h : s.hostView = s'.hostView) :
    (s.takingWord ws).hostView = (s'.takingWord ws).hostView := by
  obtain ⟨hn, ht, -, hrst, hresp⟩ := hostView_eq_iff.mp h
  exact hostView_eq_iff.mpr ⟨hn, ht, rfl, congrArg List.tail hrst, hresp⟩

theorem hostView_sampled {s s' : State} (h : s.hostView = s'.hostView) : s.sampled.hostView = s'.sampled.hostView := by
  obtain ⟨hn, ht, hp, hrst, hresp⟩ := hostView_eq_iff.mp h
  exact hostView_eq_iff.mpr ⟨hn, ht, hp, congrArg List.tail hrst, hresp⟩

theorem hostView_applyReset {s s' : State} (h : s.hostView = s'.hostView) :
    (applyReset s).hostView = (applyReset s').hostView := by
  obtain ⟨hn, -, hp, hrst, -⟩ := hostView_eq_iff.mp h
  exact hostView_eq_iff.mpr ⟨by rw [applyReset_chainLength, applyReset_chainLength, hn], rfl, hp, hrst, rfl⟩

theorem hostView_accepted (i : Instr) {s s' : State} (h : s.hostView = s'.hostView) :
    (accepted i s).hostView = (accepted i s').hostView := by
  obtain ⟨hn, ht, hp, hrst, hresp⟩ := hostView_eq_iff.mp h
  simp only [hostView_eq_iff, accepted_chainLength, accepted_tx, accepted_port, accepted_rst, accepted_responses, hn, ht, hp,
    hrst, hresp, and_self]

/-- Whether a `Present` step answers depends on the chain length alone, not on the bit it reads. -/
theorem hostView_presentStep (k : Nat) {s s' : State} (h : s.hostView = s'.hostView) :
    seen State.hostView (presentStep k s) = seen State.hostView (presentStep k s') := by
  obtain ⟨hn, -⟩ := hostView_eq_iff.mp h
  have hlen : s'.slots.length = s.slots.length := hn.symm
  unfold presentStep
  by_cases hk : k < 16 * s.slots.length
  · obtain ⟨b, hb⟩ := cellRead_eq_some hk
    obtain ⟨b', hb'⟩ := cellRead_eq_some (hlen ▸ hk)
    rw [hb, hb']
    exact congrArg Host.Outcome.next (hostView_setTx (.shift k .clkHigh) (s := emit .data b s) (s' := emit .data b' s') h)
  · rw [cellRead_eq_none (Nat.not_lt.mp hk), cellRead_eq_none (hlen ▸ Nat.not_lt.mp hk)]

/-- An event is not seen by the host: `emit` leaves the host's view as it is, by definition. -/
theorem hostView_sequencerStep {s s' : State} (h : s.hostView = s'.hostView) :
    seen State.hostView (sequencerStep s) = seen State.hostView (sequencerStep s') := by
  obtain ⟨hn, ht, -⟩ := hostView_eq_iff.mp h
  unfold sequencerStep
  rw [← ht]
  split
  · exact congrArg Host.Outcome.next h
  · exact congrArg Host.Outcome.next (hostView_setTx _ (s := emit .cs false s) (s' := emit .cs false s') h)
  · exact hostView_presentStep _ h
  · exact congrArg Host.Outcome.next (hostView_setTx _ (s := emit .clk true s) (s' := emit .clk true s') h)
  · unfold clkLowStep
    rw [hn]
    exact congrArg Host.Outcome.next (hostView_setTx _ (s := emit .clk false s) (s' := emit .clk false s') h)
  · exact congrArg Host.Outcome.next (hostView_setTx _ (hostView_respond .ok (s := emit .cs true s) (s' := emit .cs true s') h))

/-- Settles O48: two states that the host sees alike are in one situation, and in each of them act alike. -/
theorem hostLearnsNothingOfTheSlots : Obligations.HostLearnsNothingOfTheSlots := by
  intro s s' h
  obtain ⟨hn', htx, hport, hrst, -⟩ := hostView_eq_iff.mp h
  have hnow : s'.rstNow = s.rstNow := congrArg (List.headD · false) hrst.symm
  obtain h0 | ⟨hn, hcase⟩ := situation_cases s
  · have h0' : s'.slots = [] := List.eq_nil_of_length_eq_zero (hn'.symm.trans (congrArg List.length h0))
    rw [step_noBlock h0, step_noBlock h0']
  rw [hn'] at hn
  have hs : 1 ≤ s.chainLength := hn'.symm ▸ hn
  obtain hr | ⟨hr, ht | ⟨ht, hp | ⟨w, ws, hp, ⟨i, hd⟩ | ⟨e, hd⟩⟩⟩⟩ := hcase
  · rw [step_reset hs hr, step_reset hn (hnow.trans hr)]
    exact congrArg Host.Outcome.next (hostView_applyReset (hostView_sampled h))
  · rw [step_sequence hs hr ht, step_sequence hn (hnow.trans hr) (htx ▸ ht)]
    exact hostView_sequencerStep (hostView_sampled h)
  · rw [step_wait hs hr ht hp, step_wait hn (hnow.trans hr) (htx ▸ ht) (hport ▸ hp)]
    exact congrArg Host.Outcome.next (hostView_sampled h)
  · rw [step_accept hs hr ht hp hd, step_accept hn (hnow.trans hr) (htx ▸ ht) (hport ▸ hp) hd,
      exec_idle i (s := s.takingWord ws) ht, exec_idle i (s := s'.takingWord ws) (htx ▸ ht)]
    exact congrArg Host.Outcome.next (hostView_accepted i (hostView_takingWord ws h))
  · rw [step_reject hs hr ht hp hd, step_reject hn (hnow.trans hr) (htx ▸ ht) (hport ▸ hp) hd]

end Sys2Proof.Machine
end

section
/-! The chips (R104, R105; log entry 14): what a list of events does to them, and what a burst leaves in them. -/

namespace Sys2Proof.Machine

/-! ### A step of the block, seen by the chips -/

theorem World.step_of_block {s t : State} (c : Chain) (h : Machine.step s = .next t) :
    World.step { block := s, chain := c } = .next { block := t, chain := c.follow s t } := by
  simp only [World.step, h]

theorem World.step_eq_next {w v : World} (h : w.step = .next v) :
    ∃ t, Machine.step w.block = .next t ∧ v = { block := t, chain := w.chain.follow w.block t } := by
  cases hs : Machine.step w.block with
  | next t =>
    rw [World.step_of_block w.chain hs] at h
    cases h
    exact ⟨t, rfl, rfl⟩
  | fault => simp only [World.step, hs, reduceCtorEq] at h
  | refused => simp only [World.step, hs, reduceCtorEq] at h

theorem Chain.follow_of_noReset {s : State} (h : s.rstNow = false) (t : State) (c : Chain) :
    c.follow s t = c.observe s.pins t.pins := by
  simp [Chain.follow, h]

theorem Chain.follow_of_idle {s : State} (h : s.tx = .idle) (t : State) (c : Chain) :
    c.follow s t = c.observe s.pins t.pins := by
  simp [Chain.follow, h]

theorem Chain.follow_reset {s : State} (hr : s.rstNow = true) (ht : s.tx ≠ .idle) (t : State) (c : Chain) :
    c.follow s t = c.forget := by
  simp [Chain.follow, hr, ht]

/-- Where `CLK` is low and `CS` does not rise, the chips see nothing. -/
theorem Chain.observe_noEdge {p q : Pins} (hclk : q.clk = false) (hcs : p.cs = true ∨ q.cs = false) (c : Chain) :
    c.observe p q = c := by
  have h1 : (!p.clk && q.clk) = false := by simp [hclk]
  have h2 : (!p.cs && q.cs) = false := by obtain h | h := hcs <;> simp [h]
  simp [Chain.observe, h1, h2]

/-- A step from `Idle` leaves the pins as they were, or resets them. -/
theorem step_pins_of_idle {s t : State} (h : Machine.step s = .next t) (ht : s.tx = .idle) :
    t.pins = s.pins ∨ t.pins = restPins := by
  obtain ⟨-, ⟨-, rfl⟩ | ⟨-, ht', -⟩ | ⟨-, -, -, rfl⟩ | ⟨-, -, w, ws, i, -, -, rfl⟩⟩ := step_cases h
  · exact .inr rfl
  · exact absurd ht ht'
  · exact .inl rfl
  · exact .inl (accepted_pins i _)

/-- Settles O50: in `Idle` the pins are at rest before and after, so no edge reaches the chips. -/
theorem chipsSeeOnlyBursts : Obligations.ChipsSeeOnlyBursts := by
  intro w v hI h
  obtain ⟨t, hstep, rfl⟩ := World.step_eq_next h
  refine ⟨fun ht => ?_, fun ht hr => Chain.follow_reset hr ht t w.chain⟩
  obtain ⟨hcs, hclk⟩ := (sequencerOk_rest (.inl ht)).mp hI.sequencer
  have hclk' : t.pins.clk = false := by
    obtain hp | hp := step_pins_of_idle hstep ht <;> rw [hp]
    · exact hclk
    · rfl
  exact (Chain.follow_of_idle ht t w.chain).trans (Chain.observe_noEdge hclk' (.inl hcs) w.chain)

/-! ### Events, seen by the chips -/

/-- The chips when the events `es` have been emitted one by one, from pins at `p` on. -/
def Chain.watch : List PinEvent → Pins → Chain → Chain
  | [], _, c => c
  | e :: es, p, c => Chain.watch es (p.assign e) (c.observe p (p.assign e))

theorem Chain.watch_append (es fs : List PinEvent) (p : Pins) (c : Chain) :
    Chain.watch (es ++ fs) p c = Chain.watch fs (p.assignAll es) (Chain.watch es p c) := by
  induction es generalizing p c with
  | nil => rfl
  | cons e es ih => exact ih (p.assign e) (c.observe p (p.assign e))

/-- Without reset, the rest of a burst runs to `Idle`, and the chips watch its events. -/
theorem World.steps_restOfBurst (es : List PinEvent) {s : State} {k : Nat} (c : Chain) (hn : 1 ≤ s.chainLength)
    (hes : (burstEvents s.slots).drop k = es) (hx : s.tx = txAt s.chainLength k) (hr : NoResetFor es.length s) :
    ∃ t, World.steps es.length { block := s, chain := c } = .next { block := t, chain := Chain.watch es s.pins c } ∧
      t.tx = .idle := by
  have hlen : (burstEvents s.slots).length = 48 * s.chainLength + 2 := burstEvents_length s.slots
  induction es generalizing s k c with
  | nil => exact ⟨s, rfl, hx.trans (txAt_done (hlen ▸ List.drop_eq_nil_iff.mp hes))⟩
  | cons e es ih =>
    have hk : k < 48 * s.chainLength + 2 := by
      by_contra hk
      rw [List.drop_eq_nil_of_le (hlen ▸ Nat.not_lt.mp hk)] at hes
      cases hes
    obtain ⟨e', he', hstep⟩ := step_position hn hr.now hk hx
    have he : (burstEvents s.slots)[k]? = some e := by rw [← List.head?_drop, hes]; rfl
    obtain rfl : e' = e := Option.some.inj (he'.symm.trans he)
    have hes' : (burstEvents s.slots).drop (k + 1) = es := by rw [← List.tail_drop, hes]; rfl
    obtain ⟨t, hsteps, ht⟩ := ih (s := afterEvent s.chainLength k e' s) (c.observe s.pins (s.pins.assign e')) hn hes' rfl
      (hr.tail rfl) hlen
    refine ⟨t, ?_, ht⟩
    rw [List.length_cons, World.steps, World.step_of_block c hstep, Chain.follow_of_noReset hr.now]
    exact hsteps

/-- The chips after shifting in some bits, one after the other. -/
def Chain.shiftAll (bs : List Level) (c : Chain) : Chain := bs.foldl (fun c b => c.shiftIn b) c

theorem Chain.shiftAll_length (bs : List Level) (c : Chain) : (c.shiftAll bs).length = c.length := by
  induction bs generalizing c with
  | nil => rfl
  | cons b bs ih => exact ih (c.shiftIn b)

/-- With the timing contract kept, each bit of a burst is shifted in at its rising clock edge (R104). -/
theorem Chain.watch_bitsEvents (bs : List Level) {p : Pins} {c : Chain} (hclk : p.clk = false)
    (ht : c.timingKept = true) : Chain.watch (bs.flatMap bitEvents) p c = c.shiftAll bs := by
  induction bs generalizing p c with
  | nil => rfl
  | cons b bs ih =>
    have hbit : Chain.watch (bitEvents b) p c = c.shiftIn b := by
      simp [bitEvents, Chain.watch, Chain.observe, Chain.clockEdge, hclk, ht]
    rw [List.flatMap_cons, Chain.watch_append, hbit]
    exact ih rfl ht

/-- A whole burst shifts its stream in, and latches it at its end (R104, R105). -/
theorem Chain.watch_burstEvents {m : Memory} {p : Pins} {c : Chain} (hm : 1 ≤ m.length) (hclk : p.clk = false)
    (ht : c.timingKept = true) : Chain.watch (burstEvents m) p c = (c.shiftAll (streamBits m)).latch := by
  obtain ⟨b, hlast, -⟩ := streamBits_getLast? hm
  have hfall : c.observe p (p.assign ⟨.cs, false⟩) = c := Chain.observe_noEdge (q := p.assign ⟨.cs, false⟩) hclk (.inr rfl) c
  rw [burstEvents, List.cons_append, Chain.watch, hfall, Chain.watch_append,
    Chain.watch_bitsEvents _ (p := p.assign ⟨.cs, false⟩) hclk ht, assignAll_bitsEvents hlast]
  rfl

/-! ### What the chips hold -/

/-- The last bits shifted in stand first (R104); what stood before moves up and out. -/
theorem Chain.shiftAll_cells {bs : List Level} (h : bs ≠ []) (c : Chain) :
    (c.shiftAll bs).cells = (bs.reverse ++ c.cells).take (16 * c.length) := by
  induction bs generalizing c with
  | nil => exact absurd rfl h
  | cons b bs ih =>
    cases bs with
    | nil => rfl
    | cons a as =>
      have htake : (c.shiftIn b).cells = (b :: c.cells).take (16 * c.length) := rfl
      rw [show c.shiftAll (b :: a :: as) = (c.shiftIn b).shiftAll (a :: as) from rfl, ih (List.cons_ne_nil a as), htake,
        List.reverse_cons (a := b), List.append_assoc, List.singleton_append]
      show List.take (16 * c.length) _ = _
      rw [List.take_append, List.take_append (l₂ := b :: c.cells), List.take_take, Nat.min_eq_left (Nat.sub_le _ _)]

/-- Where a slot's bits stand in the stream, last bit first. -/
theorem streamBits_reverse_slot {m : Memory} {j : Nat} {f : Frame} (h : m[j]? = some f) :
    ((streamBits m).reverse.drop (16 * (m.length - (j + 1)))).take 16 = (frameBits f).reverse := by
  induction m generalizing j with
  | nil => cases h
  | cons g m ih =>
    rw [streamBits_cons, List.reverse_append, List.length_cons]
    cases j with
    | zero =>
      cases h
      rw [List.drop_left' (by rw [List.length_reverse, streamBits_length]; rfl)]
      rfl
    | succ j =>
      have hj : j < m.length := Nat.lt_of_succ_lt_succ (List.getElem?_eq_some_iff.mp h).1
      rw [Nat.add_sub_add_right, List.drop_append_of_le_length (by rw [List.length_reverse, streamBits_length]; omega),
        List.take_append_of_le_length (by rw [List.length_drop, List.length_reverse, streamBits_length]; omega)]
      exact ih h

/-- A frame from its bits, last bit first. -/
theorem ofBoolListLE_frameBits_reverse (f : Frame) :
    (BitVec.ofBoolListLE (frameBits f).reverse).setWidth 16 = f := by
  have hbits : (frameBits f).reverse = (List.range 16).map f.getLsbD := rfl
  refine BitVec.eq_of_getLsbD_eq fun i hi => ?_
  rw [BitVec.getLsbD_setWidth, BitVec.getLsbD_ofBoolListLE, hbits]
  simp [hi]

/-- Once the stream of a buffer is in the chain, every device latches its own slot (R105). -/
theorem Chain.latch_latched {m : Memory} {c : Chain} (hcells : c.cells = (streamBits m).reverse)
    (hlen : c.length = m.length) : c.latch.latched = m := by
  refine List.ext_getElem? fun j => ?_
  show ((List.range c.length).map fun i => c.held (i + 1))[j]? = m[j]?
  rw [List.getElem?_map, hlen]
  cases hf : m[j]? with
  | none => rw [List.getElem?_eq_none (by simpa using hf)]; rfl
  | some f =>
    have hj : j < m.length := (List.getElem?_eq_some_iff.mp hf).1
    rw [List.getElem?_range hj, Option.map_some, Chain.held, hcells, hlen, streamBits_reverse_slot hf,
      ofBoolListLE_frameBits_reverse]

/-- Settles O49: the chips watch the burst from its beginning, and its stream is as long as the chain register. -/
theorem burstDeliversEverySlotToItsDevice : Obligations.BurstDeliversEverySlotToItsDevice := by
  rintro ⟨s, c⟩ hI (ht : s.tx = .latchLow) (hr : NoResetFor (burstSteps s.chainLength) s)
    (hlen : c.length = s.chainLength) (htiming : c.timingKept = true)
  have hn : 1 ≤ s.chainLength := hI.chainLength_pos
  obtain ⟨-, hclk⟩ := (sequencerOk_rest (.inr ht)).mp hI.sequencer
  have hsteps : (burstEvents s.slots).length = burstSteps s.chainLength := burstEvents_length s.slots
  obtain ⟨t, hrun, hidle⟩ := World.steps_restOfBurst (burstEvents s.slots) (k := 0) c hn rfl ht (hsteps ▸ hr)
  rw [hsteps, Chain.watch_burstEvents hn hclk htiming] at hrun
  have hstream : (streamBits s.slots).length = 16 * c.length := by rw [streamBits_length, hlen]; rfl
  have hcells : (c.shiftAll (streamBits s.slots)).cells = (streamBits s.slots).reverse := by
    rw [Chain.shiftAll_cells (List.ne_nil_of_length_pos (by omega)), List.take_left' (by rw [List.length_reverse, hstream])]
  exact ⟨_, hrun, hidle, hcells, Chain.latch_latched hcells ((Chain.shiftAll_length _ c).trans hlen)⟩

end Sys2Proof.Machine
end
